-- ==== Sys2Proof/Word.lean ====
section
/-! DEFINITION. The word types of the machine (10_state.md R20; the widths of `PC`, `I` and stack slots are decision D2). -/

namespace Sys2Proof

/-- A general register, a memory cell, a framebuffer byte (R21, R32, R34). -/
abbrev Byte := BitVec 8

/-- `PC`, `I`, a stack slot: 16 bits, never masked to 12 (R24, R28, R30). -/
abbrev Addr := BitVec 16

/-- One instruction word; bit 15 is the most significant (R90, R92). -/
abbrev Word := BitVec 16

/-- The number of a general register, 0 to 15 (R21). -/
abbrev Reg := Fin 16

end Sys2Proof
end

