-- ==== Sys2Proof/Syntax.lean ====
section
/-! DEFINITION. The 34 instructions of 30_encoding.md R96, one constructor per row of the opcode map, in the map's order. Every operand has
exactly the width its field has in the word (R92, R94), so an instruction that no word encodes cannot be written. -/

namespace Sys2Proof

inductive Instr where
  /-- `clear`, 00E0 (R140). -/
  | clear
  /-- `return`, 00EE (R141). -/
  | ret
  /-- `jump nnn`, 1nnn (R142). -/
  | jump (nnn : BitVec 12)
  /-- `call nnn`, 2nnn (R143). -/
  | call (nnn : BitVec 12)
  /-- `skip-eq-imm Vx,nn`, 3xnn (R145). -/
  | skipEqImm (x : Reg) (nn : Byte)
  /-- `skip-ne-imm Vx,nn`, 4xnn (R146). -/
  | skipNeImm (x : Reg) (nn : Byte)
  /-- `skip-eq-reg Vx,Vy`, 5xy0 (R147). -/
  | skipEqReg (x y : Reg)
  /-- `load-imm Vx,nn`, 6xnn (R160). -/
  | loadImm (x : Reg) (nn : Byte)
  /-- `add-imm Vx,nn`, 7xnn (R161). -/
  | addImm (x : Reg) (nn : Byte)
  /-- `copy Vx,Vy`, 8xy0 (R162). -/
  | copy (x y : Reg)
  /-- `or Vx,Vy`, 8xy1 (R163). -/
  | or (x y : Reg)
  /-- `and Vx,Vy`, 8xy2 (R164). -/
  | and (x y : Reg)
  /-- `xor Vx,Vy`, 8xy3 (R165). -/
  | xor (x y : Reg)
  /-- `add-carry Vx,Vy`, 8xy4 (R166). -/
  | addCarry (x y : Reg)
  /-- `sub-borrow Vx,Vy`, 8xy5 (R167). -/
  | subBorrow (x y : Reg)
  /-- `shift-right Vx,Vy`, 8xy6 (R176); `Vy` is the source only when `LEGACY_SHIFT` is 1. -/
  | shiftRight (x y : Reg)
  /-- `sub-borrow-rev Vx,Vy`, 8xy7 (R168). -/
  | subBorrowRev (x y : Reg)
  /-- `shift-left Vx,Vy`, 8xyE (R178); `Vy` is the source only when `LEGACY_SHIFT` is 1. -/
  | shiftLeft (x y : Reg)
  /-- `skip-ne-reg Vx,Vy`, 9xy0 (R148). -/
  | skipNeReg (x y : Reg)
  /-- `load-index nnn`, Annn (R190). -/
  | loadIndex (nnn : BitVec 12)
  /-- `jump0 nnn`, Bnnn (R144). -/
  | jump0 (nnn : BitVec 12)
  /-- `random Vx,nn`, Cxnn (R199). -/
  | random (x : Reg) (nn : Byte)
  /-- `draw Vx,Vy,n`, Dxyn (R210); n is the number of sprite rows, 0 to 15. -/
  | draw (x y : Reg) (n : Fin 16)
  /-- `skip-if-pressed Vx`, Ex9E (R230). -/
  | skipIfPressed (x : Reg)
  /-- `skip-if-not-pressed Vx`, ExA1 (R231). -/
  | skipIfNotPressed (x : Reg)
  /-- `store-delay Vx`, Fx07 (R240). -/
  | storeDelay (x : Reg)
  /-- `wait-key Vx`, Fx0A (R232). -/
  | waitKey (x : Reg)
  /-- `set-delay Vx`, Fx15 (R241). -/
  | setDelay (x : Reg)
  /-- `set-sound Vx`, Fx18 (R242). -/
  | setSound (x : Reg)
  /-- `add-index-from-reg Vx`, Fx1E (R192). -/
  | addIndexFromReg (x : Reg)
  /-- `font-address Vx`, Fx29 (R195). -/
  | fontAddress (x : Reg)
  /-- `store-bcd Vx`, Fx33 (R252). -/
  | storeBcd (x : Reg)
  /-- `store-regs-to-mem Vx`, Fx55 (R250): stores `V0` to `Vx`. -/
  | storeRegsToMem (x : Reg)
  /-- `load-regs-from-mem Vx`, Fx65 (R251): loads `V0` to `Vx`. -/
  | loadRegsFromMem (x : Reg)
  deriving DecidableEq, Repr

end Sys2Proof
end

