-- ==== Sys2Proof/WellFormed.lean ====
section
/-! DEFINITION. What is well formed before decoding: the record of fields that the decoder of R91 exposes. Its fields overlap (R92), so a record
is well formed when the overlapping fields agree. `Instr` needs no check: each operand's type is exactly its field's width. -/

namespace Sys2Proof

/-- The "immutable record exposing the raw code and the fixed sub-fields" (R91, R92). -/
structure Fields where
  code : Word
  op : BitVec 4
  x : BitVec 4
  y : BitVec 4
  n : BitVec 4
  nn : BitVec 8
  nnn : BitVec 12
  deriving DecidableEq, Repr

/-- `nn` is `y` concatenated with `n` (R92). -/
def Fields.nnAgrees (f : Fields) : Bool := f.nn == f.y ++ f.n

/-- `nnn` is `x` concatenated with `nn` (R92). -/
def Fields.nnnAgrees (f : Fields) : Bool := f.nnn == f.x ++ f.nn

/-- The raw word is `op` concatenated with `nnn` (R92). -/
def Fields.codeAgrees (f : Fields) : Bool := f.code == f.op ++ f.nnn

def Fields.wellFormed (f : Fields) : Bool := f.nnAgrees && f.nnnAgrees && f.codeAgrees

end Sys2Proof
end

