-- ==== Sys2Proof/Decode.lean ====
section
/-! DEFINITION. The decoder (30_encoding.md R91 to R102), total on every word and every list of bytes and rejecting by name, and after it the
encoder (R108) and the opcode map as rows of mask and match (R96). -/

namespace Sys2Proof

/-- Why the decoder gives no instruction. -/
inductive Rejected where
  /-- The word matches no row of the opcode map: the no-operation reported as `InvalidOpcode(w)` (R98). -/
  | unassigned (w : Word)
  /-- Fewer than two bytes: no instruction word is there. -/
  | truncated
  deriving DecidableEq, Repr

/-- The byte at the lower address is the high-order byte (R61, decision D3). -/
def wordOfBytes (hi lo : Byte) : Word := hi ++ lo

def highByte (w : Word) : Byte := w.extractLsb' 8 8

def lowByte (w : Word) : Byte := w.extractLsb' 0 8

/-- Field extraction: pure, never fails (R91, R92, R122). -/
def fieldsOf (w : Word) : Fields where
  code := w
  op := w.extractLsb' 12 4
  x := w.extractLsb' 8 4
  y := w.extractLsb' 4 4
  n := w.extractLsb' 0 4
  nn := w.extractLsb' 0 8
  nnn := w.extractLsb' 0 12

/-- The register a 4-bit field selects (R94). -/
def regOf (b : BitVec 4) : Reg := b.toFin

/-- Group 0 is matched on all 16 bits (R95, decision D16). -/
def dispatch0 (f : Fields) : Except Rejected Instr :=
  match f.nnn.toNat with
  | 0x0E0 => .ok .clear
  | 0x0EE => .ok .ret
  | _ => .error (.unassigned f.code)

/-- Group 5 is refined by the trailing nibble (R95). -/
def dispatch5 (f : Fields) : Except Rejected Instr :=
  match f.n.toNat with
  | 0x0 => .ok (.skipEqReg (regOf f.x) (regOf f.y))
  | _ => .error (.unassigned f.code)

/-- Group 8 is refined by the trailing nibble (R95). Both shift words decode to one instruction each; `LEGACY_SHIFT` picks only their source
operand when they execute (R102, R123). -/
def dispatch8 (f : Fields) : Except Rejected Instr :=
  match f.n.toNat with
  | 0x0 => .ok (.copy (regOf f.x) (regOf f.y))
  | 0x1 => .ok (.or (regOf f.x) (regOf f.y))
  | 0x2 => .ok (.and (regOf f.x) (regOf f.y))
  | 0x3 => .ok (.xor (regOf f.x) (regOf f.y))
  | 0x4 => .ok (.addCarry (regOf f.x) (regOf f.y))
  | 0x5 => .ok (.subBorrow (regOf f.x) (regOf f.y))
  | 0x6 => .ok (.shiftRight (regOf f.x) (regOf f.y))
  | 0x7 => .ok (.subBorrowRev (regOf f.x) (regOf f.y))
  | 0xE => .ok (.shiftLeft (regOf f.x) (regOf f.y))
  | _ => .error (.unassigned f.code)

/-- Group 9 is refined by the trailing nibble (R95). -/
def dispatch9 (f : Fields) : Except Rejected Instr :=
  match f.n.toNat with
  | 0x0 => .ok (.skipNeReg (regOf f.x) (regOf f.y))
  | _ => .error (.unassigned f.code)

/-- Group E is refined by the trailing byte (R95). -/
def dispatchE (f : Fields) : Except Rejected Instr :=
  match f.nn.toNat with
  | 0x9E => .ok (.skipIfPressed (regOf f.x))
  | 0xA1 => .ok (.skipIfNotPressed (regOf f.x))
  | _ => .error (.unassigned f.code)

/-- Group F is refined by the trailing byte (R95). -/
def dispatchF (f : Fields) : Except Rejected Instr :=
  match f.nn.toNat with
  | 0x07 => .ok (.storeDelay (regOf f.x))
  | 0x0A => .ok (.waitKey (regOf f.x))
  | 0x15 => .ok (.setDelay (regOf f.x))
  | 0x18 => .ok (.setSound (regOf f.x))
  | 0x1E => .ok (.addIndexFromReg (regOf f.x))
  | 0x29 => .ok (.fontAddress (regOf f.x))
  | 0x33 => .ok (.storeBcd (regOf f.x))
  | 0x55 => .ok (.storeRegsToMem (regOf f.x))
  | 0x65 => .ok (.loadRegsFromMem (regOf f.x))
  | _ => .error (.unassigned f.code)

/-- "Dispatch key is the opcode's top nibble, refined by trailing nibble or byte for the groups 0, 5, 8, 9, E, F" (R95, R123). -/
def dispatch (f : Fields) : Except Rejected Instr :=
  match f.op.toNat with
  | 0x0 => dispatch0 f
  | 0x1 => .ok (.jump f.nnn)
  | 0x2 => .ok (.call f.nnn)
  | 0x3 => .ok (.skipEqImm (regOf f.x) f.nn)
  | 0x4 => .ok (.skipNeImm (regOf f.x) f.nn)
  | 0x5 => dispatch5 f
  | 0x6 => .ok (.loadImm (regOf f.x) f.nn)
  | 0x7 => .ok (.addImm (regOf f.x) f.nn)
  | 0x8 => dispatch8 f
  | 0x9 => dispatch9 f
  | 0xA => .ok (.loadIndex f.nnn)
  | 0xB => .ok (.jump0 f.nnn)
  | 0xC => .ok (.random (regOf f.x) f.nn)
  | 0xD => .ok (.draw (regOf f.x) (regOf f.y) (regOf f.n))
  | 0xE => dispatchE f
  | _ => dispatchF f

/-- Every one of the 65536 words decodes to an instruction or is rejected as unassigned (R91). -/
def decode (w : Word) : Except Rejected Instr := dispatch (fieldsOf w)

/-- The decoder on bytes as they lie in memory: the instruction of the first two, and the rest. -/
def decodeBytes : List Byte → Except Rejected (Instr × List Byte)
  | hi :: lo :: rest =>
    match decode (wordOfBytes hi lo) with
    | .ok i => .ok (i, rest)
    | .error e => .error e
  | _ => .error .truncated

/-! ## The encoder (R108), written from the formats of R93 and the patterns of R96 -/

/-- The 4-bit field that selects a register. -/
def regField (r : Reg) : BitVec 4 := BitVec.ofFin r

def formatNNN (op : BitVec 4) (nnn : BitVec 12) : Word := op ++ nnn

def formatXNN (op : BitVec 4) (x : Reg) (nn : Byte) : Word := op ++ (regField x ++ nn : BitVec 12)

/-- Formats XY and XYN: the last nibble is the sub-opcode or the row count. -/
def formatXYN (op : BitVec 4) (x y : Reg) (n : BitVec 4) : Word := op ++ (regField x ++ (regField y ++ n : BitVec 8) : BitVec 12)

def encode : Instr → Word
  | .clear => 0x00E0
  | .ret => 0x00EE
  | .jump nnn => formatNNN 0x1 nnn
  | .call nnn => formatNNN 0x2 nnn
  | .skipEqImm x nn => formatXNN 0x3 x nn
  | .skipNeImm x nn => formatXNN 0x4 x nn
  | .skipEqReg x y => formatXYN 0x5 x y 0x0
  | .loadImm x nn => formatXNN 0x6 x nn
  | .addImm x nn => formatXNN 0x7 x nn
  | .copy x y => formatXYN 0x8 x y 0x0
  | .or x y => formatXYN 0x8 x y 0x1
  | .and x y => formatXYN 0x8 x y 0x2
  | .xor x y => formatXYN 0x8 x y 0x3
  | .addCarry x y => formatXYN 0x8 x y 0x4
  | .subBorrow x y => formatXYN 0x8 x y 0x5
  | .shiftRight x y => formatXYN 0x8 x y 0x6
  | .subBorrowRev x y => formatXYN 0x8 x y 0x7
  | .shiftLeft x y => formatXYN 0x8 x y 0xE
  | .skipNeReg x y => formatXYN 0x9 x y 0x0
  | .loadIndex nnn => formatNNN 0xA nnn
  | .jump0 nnn => formatNNN 0xB nnn
  | .random x nn => formatXNN 0xC x nn
  | .draw x y n => formatXYN 0xD x y (regField n)
  | .skipIfPressed x => formatXNN 0xE x 0x9E
  | .skipIfNotPressed x => formatXNN 0xE x 0xA1
  | .storeDelay x => formatXNN 0xF x 0x07
  | .waitKey x => formatXNN 0xF x 0x0A
  | .setDelay x => formatXNN 0xF x 0x15
  | .setSound x => formatXNN 0xF x 0x18
  | .addIndexFromReg x => formatXNN 0xF x 0x1E
  | .fontAddress x => formatXNN 0xF x 0x29
  | .storeBcd x => formatXNN 0xF x 0x33
  | .storeRegsToMem x => formatXNN 0xF x 0x55
  | .loadRegsFromMem x => formatXNN 0xF x 0x65

/-- The bytes of an instruction in memory, the high-order byte at the lower address (R61, R108). -/
def encodeBytes (i : Instr) : List Byte := [highByte (encode i), lowByte (encode i)]

/-! ## The opcode map as data (R96) -/

/-- One row of R96: a word w selects it when `w &&& mask = pattern`. -/
structure Row where
  mask : Word
  pattern : Word
  deriving DecidableEq, Repr

def Row.selects (r : Row) (w : Word) : Bool := w &&& r.mask == r.pattern

/-- The row of R96 that stands for an instruction. -/
def rowOf : Instr → Row
  | .clear => ⟨0xFFFF, 0x00E0⟩
  | .ret => ⟨0xFFFF, 0x00EE⟩
  | .jump _ => ⟨0xF000, 0x1000⟩
  | .call _ => ⟨0xF000, 0x2000⟩
  | .skipEqImm _ _ => ⟨0xF000, 0x3000⟩
  | .skipNeImm _ _ => ⟨0xF000, 0x4000⟩
  | .skipEqReg _ _ => ⟨0xF00F, 0x5000⟩
  | .loadImm _ _ => ⟨0xF000, 0x6000⟩
  | .addImm _ _ => ⟨0xF000, 0x7000⟩
  | .copy _ _ => ⟨0xF00F, 0x8000⟩
  | .or _ _ => ⟨0xF00F, 0x8001⟩
  | .and _ _ => ⟨0xF00F, 0x8002⟩
  | .xor _ _ => ⟨0xF00F, 0x8003⟩
  | .addCarry _ _ => ⟨0xF00F, 0x8004⟩
  | .subBorrow _ _ => ⟨0xF00F, 0x8005⟩
  | .shiftRight _ _ => ⟨0xF00F, 0x8006⟩
  | .subBorrowRev _ _ => ⟨0xF00F, 0x8007⟩
  | .shiftLeft _ _ => ⟨0xF00F, 0x800E⟩
  | .skipNeReg _ _ => ⟨0xF00F, 0x9000⟩
  | .loadIndex _ => ⟨0xF000, 0xA000⟩
  | .jump0 _ => ⟨0xF000, 0xB000⟩
  | .random _ _ => ⟨0xF000, 0xC000⟩
  | .draw _ _ _ => ⟨0xF000, 0xD000⟩
  | .skipIfPressed _ => ⟨0xF0FF, 0xE09E⟩
  | .skipIfNotPressed _ => ⟨0xF0FF, 0xE0A1⟩
  | .storeDelay _ => ⟨0xF0FF, 0xF007⟩
  | .waitKey _ => ⟨0xF0FF, 0xF00A⟩
  | .setDelay _ => ⟨0xF0FF, 0xF015⟩
  | .setSound _ => ⟨0xF0FF, 0xF018⟩
  | .addIndexFromReg _ => ⟨0xF0FF, 0xF01E⟩
  | .fontAddress _ => ⟨0xF0FF, 0xF029⟩
  | .storeBcd _ => ⟨0xF0FF, 0xF033⟩
  | .storeRegsToMem _ => ⟨0xF0FF, 0xF055⟩
  | .loadRegsFromMem _ => ⟨0xF0FF, 0xF065⟩

/-- The mask and match columns of R96, rows 1 to 34. -/
def opcodeMap : List Row :=
  [⟨0xFFFF, 0x00E0⟩, ⟨0xFFFF, 0x00EE⟩, ⟨0xF000, 0x1000⟩, ⟨0xF000, 0x2000⟩, ⟨0xF000, 0x3000⟩, ⟨0xF000, 0x4000⟩, ⟨0xF00F, 0x5000⟩]
  ++ [⟨0xF000, 0x6000⟩, ⟨0xF000, 0x7000⟩, ⟨0xF00F, 0x8000⟩, ⟨0xF00F, 0x8001⟩, ⟨0xF00F, 0x8002⟩, ⟨0xF00F, 0x8003⟩, ⟨0xF00F, 0x8004⟩]
  ++ [⟨0xF00F, 0x8005⟩, ⟨0xF00F, 0x8006⟩, ⟨0xF00F, 0x8007⟩, ⟨0xF00F, 0x800E⟩, ⟨0xF00F, 0x9000⟩, ⟨0xF000, 0xA000⟩, ⟨0xF000, 0xB000⟩]
  ++ [⟨0xF000, 0xC000⟩, ⟨0xF000, 0xD000⟩, ⟨0xF0FF, 0xE09E⟩, ⟨0xF0FF, 0xE0A1⟩, ⟨0xF0FF, 0xF007⟩, ⟨0xF0FF, 0xF00A⟩, ⟨0xF0FF, 0xF015⟩]
  ++ [⟨0xF0FF, 0xF018⟩, ⟨0xF0FF, 0xF01E⟩, ⟨0xF0FF, 0xF029⟩, ⟨0xF0FF, 0xF033⟩, ⟨0xF0FF, 0xF055⟩, ⟨0xF0FF, 0xF065⟩]

/-! ## The host's numbering of a table word -/

/-- The word whose bits are `w`, bit 0 the least significant, every bit from `nbits` on zero. -/
def tableWord (nbits w : Nat) : Word := BitVec.ofNat 16 (w % 2 ^ nbits)

/-- What the decoder reads from a table word laid out as the hardware stores it, high-order byte first (R61). -/
def decodeTableWord (nbits w : Nat) : Option Instr :=
  match decodeBytes [highByte (tableWord nbits w), lowByte (tableWord nbits w)] with
  | .ok (i, _) => some i
  | .error _ => none

end Sys2Proof
end

