-- ==== Sys2Proof/Config.lean ====
section
/-! DEFINITION. What the spec leaves OPEN (92_eei_decisions.md, "Open parameters in one place"): constants with no body, so that no proof can
see their values. The parameters that have a value (`MEM_SIZE`, `FONT`, `PROG_BASE`) stand in Machine/Params.lean. -/

namespace Sys2Proof

/-- FREE VALUE (log entry 4). The byte the random collaborator supplies at the n-th `random` of a run: "the core assumes nothing about it; a
model treats each sample as a free draw" (R42, R199, D20). `State.draws` counts the samples taken. -/
opaque Config.rand : Nat → Byte

/-- OPEN (log entry 5). The level at which the host holds the `LEGACY_SHIFT` input from reset on: no default (R7, R39, D9). -/
opaque Config.legacyShift : Bool

end Sys2Proof
end

