-- ==== Sys2Proof/Machine/Params.lean ====
section
/-! DEFINITION. The implementation parameters that have a value (00_scope.md R6). They stand here, each in one definition, so that "a reader who
audits the literal can change one number" (C1). -/

namespace Sys2Proof.Machine

/-- `MEM_SIZE` = 4095: valid addresses are 0 to 0xFFE (R6, R32, D1, C1; log entry 7: the literal is UNVERIFIED in the source). -/
def memSize : Nat := 0xFFF

/-- `PROG_BASE`: load address of programs and reset value of `PC` (R6, R46, D13). -/
def progBase : Nat := 0x200

/-- `FONT_BASE` (R6). -/
def fontBase : Nat := 0

/-- `FONT`, the 80 bytes of R37's default table, glyphs 0 to F. PRESUMED (log entry 6): the source does not give them, so no proof may rest on a
particular byte unless it says so; the definition is irreducible for that reason. -/
@[irreducible] def font : List Byte :=
  [0xF0, 0x90, 0x90, 0x90, 0xF0] ++ [0x20, 0x60, 0x20, 0x20, 0x70] ++ [0xF0, 0x10, 0xF0, 0x80, 0xF0] ++ [0xF0, 0x10, 0xF0, 0x10, 0xF0]
  ++ [0x90, 0x90, 0xF0, 0x10, 0x10] ++ [0xF0, 0x80, 0xF0, 0x10, 0xF0] ++ [0xF0, 0x80, 0xF0, 0x90, 0xF0] ++ [0xF0, 0x10, 0x20, 0x40, 0x40]
  ++ [0xF0, 0x90, 0xF0, 0x90, 0xF0] ++ [0xF0, 0x90, 0xF0, 0x10, 0xF0] ++ [0xF0, 0x90, 0xF0, 0x90, 0x90] ++ [0xE0, 0x90, 0xE0, 0x90, 0xE0]
  ++ [0xF0, 0x80, 0x80, 0x80, 0xF0] ++ [0xE0, 0x90, 0x90, 0x90, 0xE0] ++ [0xF0, 0x80, 0xF0, 0x80, 0xF0] ++ [0xF0, 0x80, 0xF0, 0x80, 0x80]

end Sys2Proof.Machine
end

