-- ==== Sys2Proof/Machine/State.lean ====
section
/-! DEFINITION. The state of the core (10_state.md R20), as plain data, and its reset value (R46, R340). -/

namespace Sys2Proof.Machine

/-- `MEM` (R32): the listed cells; what an unlisted address reads as, and the canonical form, are `unlisted` and `Memory.wf` of Ops.lean. -/
abbrev Memory := List Host.Cell

/-- `FB` (R34): 256 bytes, row-major, 8 bytes a row, the most significant bit of a byte its leftmost pixel. -/
abbrev Screen := Vector Byte 256

/-- The `FAULT` register (R40, R300, R301): a code and its info. -/
inductive FaultCause where
  /-- No fault recorded: code 0, which R300's numbering leaves unused. Only the reset value (log entry 3). -/
  | none
  /-- Code 1, with the 16-bit offending address. -/
  | invalidAddress (address : Addr)
  /-- Code 2, no info. -/
  | stackOverflow
  /-- Code 3, no info. -/
  | stackUnderflow
  deriving DecidableEq, Repr

/-- The status output of a `clock` (R41, R128). -/
inductive StepStatus where
  /-- An assigned instruction completed. -/
  | ok
  /-- An unassigned word ran as a no-operation (R98, R303). -/
  | invalidOpcode (w : Word)
  /-- The step was abandoned, or the core was already halted (R124, R304). -/
  | fault (cause : FaultCause)
  deriving DecidableEq, Repr

structure State where
  /-- `V[0]` to `V[15]` (R21, R22). -/
  v : Vector Byte 16
  /-- `I` (R28). -/
  index : Addr
  /-- `PC` (R24). -/
  pc : Addr
  /-- `STACK[0]` to `STACK[15]` (R30). -/
  stack : Vector Addr 16
  /-- `SP`: the number of occupied slots, 0 to 16 (R30; log entry 18). -/
  sp : Fin 17
  /-- `MEM` (R32). -/
  mem : Memory
  /-- `FB` (R34). -/
  fb : Screen
  /-- `KEY`: bit k is key k, 1 when pressed (R35). -/
  key : BitVec 16
  /-- `DT` (R36). -/
  dt : Byte
  /-- `ST` (R36). -/
  st : Byte
  /-- `DRAWN` (R38). -/
  drawn : Bool
  /-- `ACK` (R38). -/
  ack : Bool
  /-- `HALTED` (R40). -/
  halted : Bool
  /-- `FAULT` (R40), meaningful when `HALTED` is 1. -/
  fault : FaultCause
  /-- The status output of the last `clock` (R41): an output of the machine, held by the model (log entry 2). -/
  status : StepStatus
  /-- The level of the `LEGACY_SHIFT` input (R7, R39): an input of the machine, held by the model (log entry 5). -/
  legacyShift : Bool
  /-- How many bytes of the `RAND` input have been sampled: the model's own counter (R42; log entry 4). -/
  draws : Nat
  deriving DecidableEq, Repr

/-- No step of this machine ends in a fault outcome: each of the spec's fatal faults has an entry that the spec describes (R304: `HALTED` and
`FAULT` set, nothing else changed), so it is a NEXT state (log entry 1). There is therefore no constructor. -/
inductive Fault where
  deriving DecidableEq, Repr

/-- Why the model gives an instruction no meaning. -/
inductive Refusal where
  /-- Raised by an arm of `exec` for an instruction without a meaning; safe, since nothing can be proved about a state after it. No arm raises it:
  every instruction has its meaning. -/
  | notModelled (mnemonic : String)
  deriving DecidableEq, Repr

abbrev Result := Host.Outcome State Fault Refusal

/-- Reset ("construction", R340): the values of R46. `MEM` lists nothing, so every address reads its reset contents. -/
def State.reset : State where
  v := Vector.replicate 16 0
  index := 0
  pc := BitVec.ofNat 16 progBase
  stack := Vector.replicate 16 0
  sp := 0
  mem := []
  fb := Vector.replicate 256 0
  key := 0
  dt := 0
  st := 0
  drawn := false
  ack := false
  halted := false
  fault := .none
  status := .ok
  legacyShift := Config.legacyShift
  draws := 0

end Sys2Proof.Machine
end

