-- ==== Sys2Proof/Machine/Ops.lean ====
section
/-! DEFINITION. The named operations over registers, memory, stack and framebuffer; the range check; instruction fetch; how a step ends: the default
advance, a transfer, a fatal fault, a report. -/

namespace Sys2Proof.Machine

/-! ## One field at a time -/

/-- `V[x]` (R10, R21). -/
def State.reg (s : State) (x : Reg) : Byte := s.v[x]

/-- `V[x] <- b` (R10, R21): no register is hardwired. -/
def State.setReg (s : State) (x : Reg) (b : Byte) : State := { s with v := s.v.set x b }

def State.setRegs (s : State) (v : Vector Byte 16) : State := { s with v := v }

def State.setIndex (s : State) (a : Addr) : State := { s with index := a }

def State.setPc (s : State) (a : Addr) : State := { s with pc := a }

def State.setStack (s : State) (stack : Vector Addr 16) (sp : Fin 17) : State := { s with stack := stack, sp := sp }

def State.setMem (s : State) (m : Memory) : State := { s with mem := m }

/-- `FB` together with `DRAWN <- 1`: only `clear` and `draw` write `FB`, and both set `DRAWN` (R34, R38). -/
def State.setScreen (s : State) (fb : Screen) : State := { s with fb := fb, drawn := true }

def State.setKeys (s : State) (k : BitVec 16) : State := { s with key := k }

def State.setDelayTimer (s : State) (b : Byte) : State := { s with dt := b }

def State.setSoundTimer (s : State) (b : Byte) : State := { s with st := b }

def State.setHandshake (s : State) (drawn ack : Bool) : State := { s with drawn := drawn, ack := ack }

def State.setStatus (s : State) (r : StepStatus) : State := { s with status := r }

/-- One byte of the `RAND` input has been sampled (R42). -/
def State.countDraw (s : State) : State := { s with draws := s.draws + 1 }

/-- `HALTED <- 1`, `FAULT <- c`, and the step's status output (R304). -/
def State.latchFault (s : State) (c : FaultCause) : State := { s with halted := true, fault := c, status := .fault c }

/-! ## Memory (R32, R64, R70) -/

/-- What an address holds after reset: the font at 0 to 79, zero elsewhere (R46, R70; log entry 16). -/
def unlisted (a : Nat) : Byte := if fontBase ≤ a ∧ a < fontBase + 80 then font.getD (a - fontBase) 0 else 0

/-- `MEM[a]` (R10). -/
def Memory.read : Memory → Nat → Byte
  | [], a => unlisted a
  | (k, b) :: m, a => if a = k then b else Memory.read m a

/-- The cells that say address `a` holds `b`: none where that is what `a` reads as unlisted. -/
def cellsFor (a : Nat) (b : Byte) : Memory := if b = unlisted a then [] else [(a, b)]

/-- `MEM[a] <- b` (R10), keeping the canonical form. -/
def Memory.write : Memory → Nat → Byte → Memory
  | [], a, b => cellsFor a b
  | (k, c) :: m, a, b =>
    if a < k then cellsFor a b ++ (k, c) :: m
    else if a = k then cellsFor a b ++ m
    else (k, c) :: Memory.write m a b

/-- Consecutive bytes from `a` upward, the first byte at `a` (R62, R271). -/
def Memory.writeBytes : Memory → Nat → List Byte → Memory
  | m, _, [] => m
  | m, a, b :: bs => Memory.writeBytes (m.write a b) (a + 1) bs

/-- The canonical form from address `lo` on: addresses strictly rising and inside the memory, no entry equal to what is unlisted there. -/
def Memory.wfFrom : Nat → Memory → Bool
  | _, [] => true
  | lo, (k, b) :: m => decide (lo ≤ k) && decide (k < memSize) && decide (b ≠ unlisted k) && Memory.wfFrom (k + 1) m

/-- The canonical form: equal memories are equal data. -/
def Memory.wf (m : Memory) : Bool := Memory.wfFrom 0 m

/-- `Check(a)`, ..., `Check(a + n - 1)` in ascending order: the first offending address, if any (R10, R66, R68). -/
def checkRange : Nat → Nat → Option Nat
  | _, 0 => none
  | a, n + 1 => if a < memSize then checkRange (a + 1) n else some a

/-! ## How a step ends -/

/-- The default advance: `PC <- a + 2`, status `Ok` (R127, R128). `s` is the state the instruction leaves, its `PC` still `a`. -/
def advance (s : State) : Result := .next ((s.setPc (s.pc + 2)).setStatus .ok)

/-- `pc <- target`: the step ends with `PC = target`, status `Ok` (R10, R128, R131). Nothing is checked (R67, D6). -/
def transfer (target : Addr) (s : State) : Result := .next ((s.setPc target).setStatus .ok)

/-- Taking a fatal fault, the machine's one kind of exception (R304): from the state `s` BEFORE the step, `HALTED <- 1`, `FAULT <- c`, status
`Fault(c)`; nothing else changes, `PC` stays at the faulting instruction. There is no handler and no return (R307): only reset clears it. -/
def raise (c : FaultCause) (s : State) : Result := .next (s.latchFault c)

/-- `raise InvalidAddress(a)`: the info field is 16 bits wide (R301; log entry 17). -/
def raiseInvalidAddress (a : Nat) (s : State) : Result := raise (.invalidAddress (BitVec.ofNat 16 a)) s

/-- `report InvalidOpcode(w)` and the default advance: nothing else changes (R98, R303). -/
def reportInvalidOpcode (w : Word) (s : State) : Result := .next ((s.setPc (s.pc + 2)).setStatus (.invalidOpcode w))

/-- A `clock` while `HALTED` is 1: no fetch, no change, the same fault reported again (R124). -/
def reportHalted (s : State) : Result := .next (s.setStatus (.fault s.fault))

/-! ## Fetch (R121) -/

/-- `MemRead(PC, 2)`: the word, or the first offending address of `PC`, `PC + 1`. -/
def fetch (s : State) : Except Nat Word :=
  match checkRange s.pc.toNat 2 with
  | some bad => .error bad
  | none => .ok (wordOfBytes (s.mem.read s.pc.toNat) (s.mem.read (s.pc.toNat + 1)))

/-! ## The return stack (R30, R141, R143) -/

/-- `STACK[SP] <- a; SP <- SP + 1`, or none when all 16 slots are occupied. -/
def State.push (s : State) (a : Addr) : Option State :=
  if h : s.sp.val < 16 then some (s.setStack (s.stack.set s.sp.val a) ⟨s.sp.val + 1, by omega⟩) else none

/-- `SP <- SP - 1` and the slot then named by `SP`, or none when the stack is empty. The slot is not cleared. -/
def State.pop (s : State) : Option (Addr × State) :=
  if h : 0 < s.sp.val then
    some (s.stack[s.sp.val - 1]'(by omega), s.setStack s.stack ⟨s.sp.val - 1, by omega⟩)
  else none

end Sys2Proof.Machine
end

