-- ==== Sys2Proof/Machine/Flags.lean ====
section
/-! DEFINITION. Every computation of the flag `VF` (10_state.md R43) and the order of its write (R23). -/

namespace Sys2Proof.Machine

/-- The number of `VF`. -/
def flagReg : Reg := 15

/-- A flag as the byte 0 or 1 (R22). -/
def flagByte (b : Bool) : Byte := if b then 1 else 0

/-- `add-carry`: the exact sum does not fit a byte (R166). -/
def carryOut (a b : Byte) : Bool := decide (256 ≤ a.toNat + b.toNat)

/-- `sub-borrow` and `sub-borrow-rev`: 1 means no borrow, equality included (R167, R168, R169). -/
def noBorrow (a b : Byte) : Bool := decide (b.toNat ≤ a.toNat)

/-- `shift-right`: the bit shifted out (R176). -/
def outRight (src : Byte) : Bool := src.getLsbD 0

/-- `shift-left`: the bit shifted out (R178). -/
def outLeft (src : Byte) : Bool := src.getLsbD 7

/-- `V[15] <- flag` first, `V[x] <- result` second: with x = 15 the result stays (R23, D8; log entry 10). -/
def State.setFlagAndReg (s : State) (flag : Bool) (x : Reg) (result : Byte) : State :=
  (s.setReg flagReg (flagByte flag)).setReg x result

end Sys2Proof.Machine
end

