-- ==== Sys2Proof/Machine/Operands.lean ====
section
/-! DEFINITION. The operand forms (30_encoding.md R94; 46_memory_block.md R255), read from the state at the start of the step (40_step_cycle.md R125). -/

namespace Sys2Proof.Machine

/-- `zext_16(nnn)`: a 12-bit address operand (R94). -/
def addrOf (nnn : BitVec 12) : Addr := nnn.setWidth 16

/-- `zext_16(v)`: a register in an address sum (R144). -/
def byteToAddr (b : Byte) : Addr := b.setWidth 16

/-- The effective address `I + k`, exact (R255, R29). -/
def dataAddr (s : State) (k : Nat) : Nat := s.index.toNat + k

/-- `Check(I)`, ..., `Check(I + n - 1)`: the first offending address, if any (R68, R256). -/
def checkData (s : State) (n : Nat) : Option Nat := checkRange (dataAddr s 0) n

/-- `V0` to `Vx`, in order: what the block store stores (R250). -/
def blockRegs (s : State) (x : Reg) : List Byte := s.v.toList.take (x.val + 1)

/-- `vx[3:0]`: the key index a register names (R230, D12; log entry 12). -/
def keyIndex (b : Byte) : Fin 16 := ⟨b.toNat % 16, Nat.mod_lt _ (by decide)⟩

/-- `KEY[k] = 1` (R35). -/
def pressed (s : State) (k : Fin 16) : Bool := s.key.getLsbD k.val

/-- The least pressed key, if any: "scan Keypad 0..16 in ascending order" (R232). -/
def leastPressed (s : State) : Option (Fin 16) := (List.finRange 16).find? (pressed s)

/-- The source of the shifts: `Vx` when `LEGACY_SHIFT` is 0, `Vy` when it is 1 (R175, D9). -/
def shiftSource (s : State) (x y : Reg) : Byte := if s.legacyShift then s.reg y else s.reg x

end Sys2Proof.Machine
end

