-- ==== Sys2Proof/Machine/Draw.lean ====
section
/-! DEFINITION. The meaning of 44_draw.md: `draw`, the XOR blit with wrap-around and collision flag (R210). -/

namespace Sys2Proof.Machine

/-- The screen byte at a row and a column byte: `FB[row * 8 + col]` (R34, R211). -/
def screenByte (row : Fin 32) (col : Fin 8) : Fin 256 := ⟨row.val * 8 + col.val, by omega⟩

/-- XOR `b` into one screen byte; the flag records whether a 1 bit of `b` met a lit pixel before the XOR (R210, R214). -/
def xorScreenByte (k : Fin 256) (b : Byte) (p : Screen × Bool) : Screen × Bool :=
  (p.1.set k (p.1[k] ^^^ b), p.2 || decide (p.1[k] &&& b ≠ 0))

/-- The row a sprite row lands on: `(vy + r) mod 32` (R210, R212). -/
def drawRowNumber (vy : Byte) (r : Nat) : Fin 32 := ⟨(vy.toNat + r) % 32, Nat.mod_lt _ (by decide)⟩

/-- The starting column byte: `(vx div 8) mod 8` (R210). -/
def drawColumn (vx : Byte) : Fin 8 := ⟨vx.toNat / 8 % 8, Nat.mod_lt _ (by decide)⟩

/-- `vx mod 8` (R210). -/
def drawShift (vx : Byte) : Nat := vx.toNat % 8

/-- One sprite row `sprite` on screen row `row`: the shifted byte into the first screen byte and, unless the shift is 0, the spilled bits into the next
one, which wraps to column byte 0 of the same row (R210, R212). -/
def blitRow (vx : Byte) (row : Fin 32) (sprite : Byte) (p : Screen × Bool) : Screen × Bool :=
  if drawShift vx = 0 then xorScreenByte (screenByte row (drawColumn vx)) (sprite >>> drawShift vx) p
  else
    xorScreenByte (screenByte row (drawColumn vx + 1)) (sprite <<< (8 - drawShift vx))
      (xorScreenByte (screenByte row (drawColumn vx)) (sprite >>> drawShift vx) p)

/-- All n sprite rows, read from `I` upward, on the framebuffer as it was, with the flag reset to 0 (R210). -/
def blit (s : State) (vx vy : Byte) (n : Nat) : Screen × Bool :=
  (List.range n).foldl (fun p r => blitRow vx (drawRowNumber vy r) (s.mem.read (dataAddr s r)) p) (s.fb, false)

/-- `draw Vx,Vy,n` (R210): all checks first; then the rows; `VF` is always written and `DRAWN` always set, also for n = 0 (R215). -/
def execDraw (x y : Reg) (n : Fin 16) (s : State) : Result :=
  match checkData s n.val with
  | some bad => raiseInvalidAddress bad s
  | none =>
    advance ((s.setScreen (blit s (s.reg x) (s.reg y) n.val).1).setReg flagReg (flagByte (blit s (s.reg x) (s.reg y) n.val).2))

end Sys2Proof.Machine
end

