-- ==== Sys2Proof/Machine/IndexFontRandom.lean ====
section
/-! DEFINITION. The meanings of 43_index_font_random.md: the index register, font address, random. -/

namespace Sys2Proof.Machine

/-- `load-index nnn` (R190): not range-checked (D23). -/
def execLoadIndex (nnn : BitVec 12) (s : State) : Result := advance (s.setIndex (addrOf nnn))

/-- `add-index-from-reg Vx` (R192): the exact sum is checked, `VF` is not written. -/
def execAddIndexFromReg (x : Reg) (s : State) : Result :=
  if dataAddr s (s.reg x).toNat < memSize then advance (s.setIndex (BitVec.ofNat 16 (dataAddr s (s.reg x).toNat)))
  else raiseInvalidAddress (dataAddr s (s.reg x).toNat) s

/-- `font-address Vx` (R195): the product of the full 8-bit value (D11; log entry 11). -/
def execFontAddress (x : Reg) (s : State) : Result := advance (s.setIndex (BitVec.ofNat 16 (fontBase + (s.reg x).toNat * 5)))

/-- `random Vx,nn` (R199): one sample of the `RAND` input, a free value (log entry 4). -/
def execRandom (x : Reg) (nn : Byte) (s : State) : Result := advance ((s.setReg x (Config.rand s.draws &&& nn)).countDraw)

end Sys2Proof.Machine
end

