-- ==== Sys2Proof/Machine/ScreenFlowSkip.lean ====
section
/-! DEFINITION. The meanings of 41_screen_flow_skip.md: screen/control, jumps and calls, skips. `s.pc` is `a`, the address of the instruction. -/

namespace Sys2Proof.Machine

/-- `clear` (R140). -/
def execClear (s : State) : Result := advance (s.setScreen (Vector.replicate 256 0))

/-- `return` (R141): the popped value is the address of the matching `call`, so the step ends 2 above it. -/
def execReturn (s : State) : Result :=
  match s.pop with
  | some (a, t) => transfer (a + 2) t
  | none => raise .stackUnderflow s

/-- `jump nnn` (R142). -/
def execJump (nnn : BitVec 12) (s : State) : Result := transfer (addrOf nnn) s

/-- `call nnn` (R143): pushes the address of the `call` itself. -/
def execCall (nnn : BitVec 12) (s : State) : Result :=
  match s.push s.pc with
  | some t => transfer (addrOf nnn) t
  | none => raise .stackOverflow s

/-- `jump0 nnn` (R144): the 16-bit sum, not masked (D30). -/
def execJump0 (nnn : BitVec 12) (s : State) : Result := transfer (addrOf nnn + byteToAddr (s.reg 0)) s

/-- A skip: `PC <- a + 4` when the condition holds, else the default advance (R131). -/
def skipIf (condition : Bool) (s : State) : Result := if condition then transfer (s.pc + 4) s else advance s

/-- `skip-eq-imm Vx,nn` (R145). -/
def execSkipEqImm (x : Reg) (nn : Byte) (s : State) : Result := skipIf (decide (s.reg x = nn)) s

/-- `skip-ne-imm Vx,nn` (R146). -/
def execSkipNeImm (x : Reg) (nn : Byte) (s : State) : Result := skipIf (decide (s.reg x ≠ nn)) s

/-- `skip-eq-reg Vx,Vy` (R147). -/
def execSkipEqReg (x y : Reg) (s : State) : Result := skipIf (decide (s.reg x = s.reg y)) s

/-- `skip-ne-reg Vx,Vy` (R148). -/
def execSkipNeReg (x y : Reg) (s : State) : Result := skipIf (decide (s.reg x ≠ s.reg y)) s

end Sys2Proof.Machine
end

