-- ==== Sys2Proof/Machine/KeyTimer.lean ====
section
/-! DEFINITION. The meanings of 45_key_timer.md: key skips, `wait-key`, the three timer moves. -/

namespace Sys2Proof.Machine

/-- `skip-if-pressed Vx` (R230). -/
def execSkipIfPressed (x : Reg) (s : State) : Result := skipIf (pressed s (keyIndex (s.reg x))) s

/-- `skip-if-not-pressed Vx` (R231). -/
def execSkipIfNotPressed (x : Reg) (s : State) : Result := skipIf (!pressed s (keyIndex (s.reg x))) s

/-- `wait-key Vx` (R232): the least pressed key into `Vx`; with no key pressed `PC` stays, and the next `clock` executes the instruction again. -/
def execWaitKey (x : Reg) (s : State) : Result :=
  match leastPressed s with
  | some k => advance (s.setReg x (BitVec.ofNat 8 k.val))
  | none => transfer s.pc s

/-- `store-delay Vx` (R240): the timer into the register. -/
def execStoreDelay (x : Reg) (s : State) : Result := advance (s.setReg x s.dt)

/-- `set-delay Vx` (R241). -/
def execSetDelay (x : Reg) (s : State) : Result := advance (s.setDelayTimer (s.reg x))

/-- `set-sound Vx` (R242). -/
def execSetSound (x : Reg) (s : State) : Result := advance (s.setSoundTimer (s.reg x))

end Sys2Proof.Machine
end

