-- ==== Sys2Proof/Machine/LoadAluShift.lean ====
section
/-! DEFINITION. The meanings of 42_load_alu_shift.md: immediate load and add, register-register ALU, shifts. Arithmetic is unsigned, modulo 256 (R179). -/

namespace Sys2Proof.Machine

/-- `load-imm Vx,nn` (R160). -/
def execLoadImm (x : Reg) (nn : Byte) (s : State) : Result := advance (s.setReg x nn)

/-- `add-imm Vx,nn` (R161): wraps silently, no flag. -/
def execAddImm (x : Reg) (nn : Byte) (s : State) : Result := advance (s.setReg x (s.reg x + nn))

/-- `copy Vx,Vy` (R162). -/
def execCopy (x y : Reg) (s : State) : Result := advance (s.setReg x (s.reg y))

/-- `or Vx,Vy` (R163). -/
def execOr (x y : Reg) (s : State) : Result := advance (s.setReg x (s.reg x ||| s.reg y))

/-- `and Vx,Vy` (R164). -/
def execAnd (x y : Reg) (s : State) : Result := advance (s.setReg x (s.reg x &&& s.reg y))

/-- `xor Vx,Vy` (R165). -/
def execXor (x y : Reg) (s : State) : Result := advance (s.setReg x (s.reg x ^^^ s.reg y))

/-- `add-carry Vx,Vy` (R166). -/
def execAddCarry (x y : Reg) (s : State) : Result :=
  advance (s.setFlagAndReg (carryOut (s.reg x) (s.reg y)) x (s.reg x + s.reg y))

/-- `sub-borrow Vx,Vy` (R167). -/
def execSubBorrow (x y : Reg) (s : State) : Result :=
  advance (s.setFlagAndReg (noBorrow (s.reg x) (s.reg y)) x (s.reg x - s.reg y))

/-- `sub-borrow-rev Vx,Vy` (R168). -/
def execSubBorrowRev (x y : Reg) (s : State) : Result :=
  advance (s.setFlagAndReg (noBorrow (s.reg y) (s.reg x)) x (s.reg y - s.reg x))

/-- `shift-right Vx,Vy` (R176): logical, one bit. -/
def execShiftRight (x y : Reg) (s : State) : Result :=
  advance (s.setFlagAndReg (outRight (shiftSource s x y)) x (shiftSource s x y >>> 1))

/-- `shift-left Vx,Vy` (R178): one bit. -/
def execShiftLeft (x y : Reg) (s : State) : Result :=
  advance (s.setFlagAndReg (outLeft (shiftSource s x y)) x (shiftSource s x y <<< 1))

end Sys2Proof.Machine
end

