-- ==== Sys2Proof/Machine/MemoryBlock.lean ====
section
/-! DEFINITION. The meanings of 46_memory_block.md: the block moves and the BCD store. `I` is never changed (R255); all checks precede all writes (R68). -/

namespace Sys2Proof.Machine

/-- The three decimal digits, hundreds first (R252). -/
def bcdDigits (b : Byte) : List Byte :=
  [BitVec.ofNat 8 (b.toNat / 100), BitVec.ofNat 8 (b.toNat / 10 % 10), BitVec.ofNat 8 (b.toNat % 10)]

/-- Store `bytes` from `I` upward, or fault with nothing written (R68). -/
def storeAtIndex (bytes : List Byte) (s : State) : Result :=
  match checkData s bytes.length with
  | some bad => raiseInvalidAddress bad s
  | none => advance (s.setMem (s.mem.writeBytes (dataAddr s 0) bytes))

/-- `V0` to `Vx` from memory, the registers above x unchanged (R251). -/
def loadedRegs (s : State) (x : Reg) : Vector Byte 16 :=
  Vector.ofFn fun k => if k ≤ x then s.mem.read (dataAddr s k.val) else s.reg k

/-- `store-bcd Vx` (R252). -/
def execStoreBcd (x : Reg) (s : State) : Result := storeAtIndex (bcdDigits (s.reg x)) s

/-- `store-regs-to-mem Vx` (R250). -/
def execStoreRegsToMem (x : Reg) (s : State) : Result := storeAtIndex (blockRegs s x) s

/-- `load-regs-from-mem Vx` (R251). -/
def execLoadRegsFromMem (x : Reg) (s : State) : Result :=
  match checkData s (x.val + 1) with
  | some bad => raiseInvalidAddress bad s
  | none => advance (s.setRegs (loadedRegs s x))

end Sys2Proof.Machine
end

