-- ==== Sys2Proof/Machine/Dispatch.lean ====
section
/-! DEFINITION. The dispatch: one arm per constructor, each one call of its instruction's meaning (40_step_cycle.md R123). -/

namespace Sys2Proof.Machine

def exec (i : Instr) (s : State) : Host.Outcome State Fault Refusal :=
  match i with
  | .clear => Sys2Proof.Machine.execClear s
  | .ret => Sys2Proof.Machine.execReturn s
  | .jump nnn => Sys2Proof.Machine.execJump nnn s
  | .call nnn => Sys2Proof.Machine.execCall nnn s
  | .skipEqImm x nn => Sys2Proof.Machine.execSkipEqImm x nn s
  | .skipNeImm x nn => Sys2Proof.Machine.execSkipNeImm x nn s
  | .skipEqReg x y => Sys2Proof.Machine.execSkipEqReg x y s
  | .loadImm x nn => Sys2Proof.Machine.execLoadImm x nn s
  | .addImm x nn => Sys2Proof.Machine.execAddImm x nn s
  | .copy x y => Sys2Proof.Machine.execCopy x y s
  | .or x y => Sys2Proof.Machine.execOr x y s
  | .and x y => Sys2Proof.Machine.execAnd x y s
  | .xor x y => Sys2Proof.Machine.execXor x y s
  | .addCarry x y => Sys2Proof.Machine.execAddCarry x y s
  | .subBorrow x y => Sys2Proof.Machine.execSubBorrow x y s
  | .shiftRight x y => Sys2Proof.Machine.execShiftRight x y s
  | .subBorrowRev x y => Sys2Proof.Machine.execSubBorrowRev x y s
  | .shiftLeft x y => Sys2Proof.Machine.execShiftLeft x y s
  | .skipNeReg x y => Sys2Proof.Machine.execSkipNeReg x y s
  | .loadIndex nnn => Sys2Proof.Machine.execLoadIndex nnn s
  | .jump0 nnn => Sys2Proof.Machine.execJump0 nnn s
  | .random x nn => Sys2Proof.Machine.execRandom x nn s
  | .draw x y n => Sys2Proof.Machine.execDraw x y n s
  | .skipIfPressed x => Sys2Proof.Machine.execSkipIfPressed x s
  | .skipIfNotPressed x => Sys2Proof.Machine.execSkipIfNotPressed x s
  | .storeDelay x => Sys2Proof.Machine.execStoreDelay x s
  | .waitKey x => Sys2Proof.Machine.execWaitKey x s
  | .setDelay x => Sys2Proof.Machine.execSetDelay x s
  | .setSound x => Sys2Proof.Machine.execSetSound x s
  | .addIndexFromReg x => Sys2Proof.Machine.execAddIndexFromReg x s
  | .fontAddress x => Sys2Proof.Machine.execFontAddress x s
  | .storeBcd x => Sys2Proof.Machine.execStoreBcd x s
  | .storeRegsToMem x => Sys2Proof.Machine.execStoreRegsToMem x s
  | .loadRegsFromMem x => Sys2Proof.Machine.execLoadRegsFromMem x s

end Sys2Proof.Machine
end

