-- ==== Sys2Proof/Machine/Step.lean ====
section
/-! DEFINITION. One `clock` (40_step_cycle.md R120): exactly one instruction. -/

namespace Sys2Proof.Machine

/-- `clock()` (R120): while halted, only the fault is reported again (R124); otherwise fetch (R121), decode (R122), dispatch and execute (R123); an
unassigned word is the reported no-operation (R98). -/
def step (s : State) : Host.Outcome State Fault Refusal :=
  if s.halted then reportHalted s
  else
    match fetch s with
    | .error bad => raiseInvalidAddress bad s
    | .ok w =>
      match decode w with
      | .ok i => exec i s
      | .error _ => reportInvalidOpcode w s

/-- `s` with the table word `w` stored where `step` fetches next, the high-order byte at `PC` (R61). It stands for the host's `load` (log entry 15). -/
def State.withFetchWord (s : State) (nbits w : Nat) : State :=
  s.setMem (s.mem.writeBytes s.pc.toNat [highByte (tableWord nbits w), lowByte (tableWord nbits w)])

end Sys2Proof.Machine
end

