-- ==== Sys2Proof/Machine/RunEnd.lean ====
section
/-! DEFINITION. The end of a run (00_scope.md R16). The spec's source has no halt instruction; a run ends when the host stops (a finite list of host
operations, `runOps`), when a fatal fault halts the core, or, by the model's own predicate that R16 asks for, when the program has reached a `jump` to its
own address, "the idiom for an endless idle loop" (R142). -/

namespace Sys2Proof.Machine

/-- Where a run stands. -/
inductive RunPhase where
  /-- The program goes on. -/
  | running
  /-- The program has ended by itself: `PC` holds the address of a `jump` to itself (R16; log entry 23). -/
  | finished
  /-- A fatal fault halted the core: "a fault state, never a final state" (R308). -/
  | faulted
  deriving DecidableEq, Repr

/-- The instruction is a `jump` whose target is the address `a`. -/
def jumpsTo (a : Addr) (i : Instr) : Bool :=
  match i with
  | .jump nnn => decide (addrOf nnn = a)
  | _ => false

/-- "`PC` holds the address of a `jump` to itself" (R16). -/
def atSelfJump (s : State) : Bool :=
  match fetch s with
  | .ok w =>
    match decode w with
    | .ok i => jumpsTo s.pc i
    | .error _ => false
  | .error _ => false

/-- The model's end-of-run predicate (R16; log entry 23): a run has ended where this is not `running`. -/
def runPhase (s : State) : RunPhase :=
  if s.halted then .faulted else if atSelfJump s then .finished else .running

end Sys2Proof.Machine
end

