-- ==== Sys2Proof/Machine/HostOps.lean ====
section
/-! DEFINITION. The host operations (48_host_operations.md): what happens between steps. Each is atomic (R14, R270); `operate` is any one of them, and
`runOps` any finite interleaving, the open host schedule (D32). -/

namespace Sys2Proof.Machine

/-- The result of `load` (R271, R305). -/
inductive LoadResult where
  | ok
  /-- A result of `load`, not a fault of the core: nothing changes (R305). -/
  | romTooLarge
  deriving DecidableEq, Repr

/-- `load(bytes)`: copies the bytes to `PROG_BASE` upward if they fit (R271, R272). -/
def load (bytes : List Byte) (s : State) : State × LoadResult :=
  if memSize < bytes.length + progBase then (s, .romTooLarge)
  else (s.setMem (s.mem.writeBytes progBase bytes), .ok)

/-- `saturating_sub(b, 1)` (R276). -/
def countDown (b : Byte) : Byte := if b = 0 then 0 else b - 1

/-- `tick()` (R276): both timers count down with saturation, all keys are cleared, an acknowledged draw is forgotten. -/
def tick (s : State) : State :=
  (((s.setDelayTimer (countDown s.dt)).setSoundTimer (countDown s.st)).setKeys 0).setHandshake (s.drawn && !s.ack) false

/-- `KEY` with bit `k` set to `p`. -/
def keysWith (key : BitVec 16) (k : Fin 16) (p : Bool) : BitVec 16 :=
  if p then key ||| BitVec.twoPow 16 k.val else key &&& ~~~(BitVec.twoPow 16 k.val)

/-- `set_key(k, p)` (R277): the index is 4 bits wide (D21). -/
def setKey (k : Fin 16) (p : Bool) (s : State) : State := s.setKeys (keysWith s.key k p)

/-- `acknowledge_draw()` (R279): sets `ACK` whatever `DRAWN` is (D31). -/
def acknowledgeDraw (s : State) : State := s.setHandshake s.drawn true

/-- Reset requested by the host (R340, R341): every piece of state to its reset value; the `LEGACY_SHIFT` input keeps its level, and the count of
`RAND` samples goes on, so that later samples are fresh (log entry 14). -/
def resetBy (s : State) : State := { State.reset with legacyShift := s.legacyShift, draws := s.draws }

/-- The operations of R270. -/
inductive HostOp where
  | reset
  | load (bytes : List Byte)
  | clock
  | tick
  | setKey (k : Fin 16) (pressed : Bool)
  | drawReady
  | framebuffer
  | acknowledgeDraw
  | delay
  | sound
  deriving DecidableEq, Repr

/-- The results of R270. -/
inductive HostReply where
  | none
  | loaded (r : LoadResult)
  | status (r : StepStatus)
  | flag (b : Bool)
  | screen (fb : Screen)
  | timer (b : Byte)
  deriving DecidableEq, Repr

/-- `clock()` as the host invokes it: the state after the step and the step's status (R270). A step that gives no next state changes nothing; since
every instruction has its meaning there is none. -/
def clock (s : State) : State × HostReply :=
  match step s with
  | .next t => (t, .status t.status)
  | .fault _ => (s, .none)
  | .refused _ => (s, .none)

/-- One host operation: the state after it and its result (R270, R278, R281). Every operation is accepted while the core is halted (R285). -/
def operate (op : HostOp) (s : State) : State × HostReply :=
  match op with
  | .reset => (resetBy s, .none)
  | .load bytes => ((load bytes s).1, .loaded (load bytes s).2)
  | .clock => clock s
  | .tick => (tick s, .none)
  | .setKey k p => (setKey k p s, .none)
  | .drawReady => (s, .flag s.drawn)
  | .framebuffer => (s, .screen s.fb)
  | .acknowledgeDraw => (acknowledgeDraw s, .none)
  | .delay => (s, .timer s.dt)
  | .sound => (s, .timer s.st)

/-- Any interleaving of host operations, in order (R14). -/
def runOps (ops : List HostOp) (s : State) : State := ops.foldl (fun t op => (operate op t).1) s

end Sys2Proof.Machine
end

