-- ==== Sys2Proof/Safety.lean ====
section
/-! DEFINITION. The terms in which claims speak: frames (which parts of the state stay), the invariant of the machine, clean steps, the pixel view of
the framebuffer. -/

namespace Sys2Proof

open Sys2Proof.Machine

/-- The parts of the state, one per field of `State`. -/
inductive Part where
  | regs | index | pc | stack | sp | mem | fb | key | dt | st | drawn | ack | halted | fault | status | legacyShift | draws
  deriving DecidableEq, Repr

/-- A part is the same in two states. Memory is the same when every address reads the same byte. -/
def Part.same (p : Part) (s t : State) : Prop :=
  match p with
  | .regs => ∀ r, t.reg r = s.reg r
  | .index => t.index = s.index
  | .pc => t.pc = s.pc
  | .stack => t.stack = s.stack
  | .sp => t.sp = s.sp
  | .mem => ∀ a, t.mem.read a = s.mem.read a
  | .fb => t.fb = s.fb
  | .key => t.key = s.key
  | .dt => t.dt = s.dt
  | .st => t.st = s.st
  | .drawn => t.drawn = s.drawn
  | .ack => t.ack = s.ack
  | .halted => t.halted = s.halted
  | .fault => t.fault = s.fault
  | .status => t.status = s.status
  | .legacyShift => t.legacyShift = s.legacyShift
  | .draws => t.draws = s.draws

/-- The frame: every part that is not listed is the same. -/
def UnchangedExcept (parts : List Part) (s t : State) : Prop := ∀ p, p ∉ parts → p.same s t

/-- A step that completed at the default advance, with only the listed parts (and `PC`, status) changed (R127, R128). -/
structure CompletesWith (parts : List Part) (s t : State) : Prop where
  pc : t.pc = s.pc + 2
  status : t.status = .ok
  frame : UnchangedExcept (.pc :: .status :: parts) s t

/-- A step that completed with `PC = target` and only the listed parts (and status) changed (R128, R131). -/
structure TransfersTo (target : Addr) (parts : List Part) (s t : State) : Prop where
  pc : t.pc = target
  status : t.status = .ok
  frame : UnchangedExcept (.pc :: .status :: parts) s t

/-- A step abandoned with a fatal fault: only `HALTED`, `FAULT` and the status differ, so `PC` is that of the faulting instruction (R304). -/
structure AbandonedWith (c : FaultCause) (s t : State) : Prop where
  halted : t.halted = true
  fault : t.fault = c
  status : t.status = .fault c
  frame : UnchangedExcept [.halted, .fault, .status] s t

/-- What every operation keeps: the memory's canonical form; `I <= 0xFFF` (R29); `PC <= 0x10FE` (R27); every occupied stack slot is the address of a
fetched `call`, at most 0xFFD (R141); while halted a fault is recorded and the status reports it (R40, R124). -/
structure Inv (s : State) : Prop where
  memory : s.mem.wf = true
  index : s.index.toNat ≤ 0xFFF
  pc : s.pc.toNat ≤ 0x10FE
  slots : ∀ k : Fin 16, k.val < s.sp.val → s.stack[k].toNat ≤ 0xFFD
  recorded : s.halted = true → s.fault ≠ .none
  reported : s.halted = true → s.status = .fault s.fault

/-- Nothing has gone wrong: no fatal fault, and the last step reported no invalid opcode (R308). -/
def Clean (s : State) : Prop := s.halted = false ∧ s.status = .ok

/-- The conditions of R330 under which an instruction cannot fault after its fetch; for an instruction that R330 does not name, none. -/
def FaultFree (i : Instr) (s : State) : Prop :=
  match i with
  | .call _ => s.sp.val ≤ 15
  | .ret => 1 ≤ s.sp.val
  | .draw _ _ n => n.val = 0 ∨ s.index.toNat + n.val - 1 ≤ 0xFFE
  | .storeBcd _ => s.index.toNat ≤ 0xFFC
  | .storeRegsToMem x => s.index.toNat + x.val ≤ 0xFFE
  | .loadRegsFromMem x => s.index.toNat + x.val ≤ 0xFFE
  | .addIndexFromReg x => s.index.toNat + (s.reg x).toNat ≤ 0xFFE
  | _ => True

/-- The number `n` is a 16-bit word, and it decodes to `i`. -/
def WordMeans (n : Nat) (i : Instr) : Prop := n < 0x10000 ∧ decode (BitVec.ofNat 16 n) = .ok i

/-- The number `n` is a 16-bit word that no instruction has (R98). -/
def WordUnassigned (n : Nat) : Prop := n < 0x10000 ∧ decode (BitVec.ofNat 16 n) = .error (.unassigned (BitVec.ofNat 16 n))

/-- The word in memory at `PC`, the byte at `PC` the high-order one (R61). -/
def wordAtPc (s : State) : Word := wordOfBytes (s.mem.read s.pc.toNat) (s.mem.read (s.pc.toNat + 1))

/-- What a latched fault writes (R304). -/
def faultParts : List Part := [.halted, .fault, .status]

/-- The parts an instruction may write, read off the "written by" column of R20 (and R42 for the count of `RAND` samples). `PC` and the status output
are written by every step; an instruction of R302's list may latch a fault instead. -/
def mayWrite (i : Instr) : List Part :=
  match i with
  | .clear => [.pc, .status, .fb, .drawn]
  | .ret => [.pc, .sp] ++ faultParts
  | .jump _ => [.pc, .status]
  | .call _ => [.pc, .sp, .stack] ++ faultParts
  | .skipEqImm _ _ => [.pc, .status]
  | .skipNeImm _ _ => [.pc, .status]
  | .skipEqReg _ _ => [.pc, .status]
  | .loadImm _ _ => [.pc, .status, .regs]
  | .addImm _ _ => [.pc, .status, .regs]
  | .copy _ _ => [.pc, .status, .regs]
  | .or _ _ => [.pc, .status, .regs]
  | .and _ _ => [.pc, .status, .regs]
  | .xor _ _ => [.pc, .status, .regs]
  | .addCarry _ _ => [.pc, .status, .regs]
  | .subBorrow _ _ => [.pc, .status, .regs]
  | .shiftRight _ _ => [.pc, .status, .regs]
  | .subBorrowRev _ _ => [.pc, .status, .regs]
  | .shiftLeft _ _ => [.pc, .status, .regs]
  | .skipNeReg _ _ => [.pc, .status]
  | .loadIndex _ => [.pc, .status, .index]
  | .jump0 _ => [.pc, .status]
  | .random _ _ => [.pc, .status, .regs, .draws]
  | .draw _ _ _ => [.pc, .regs, .fb, .drawn] ++ faultParts
  | .skipIfPressed _ => [.pc, .status]
  | .skipIfNotPressed _ => [.pc, .status]
  | .storeDelay _ => [.pc, .status, .regs]
  | .waitKey _ => [.pc, .status, .regs]
  | .setDelay _ => [.pc, .status, .dt]
  | .setSound _ => [.pc, .status, .st]
  | .addIndexFromReg _ => [.pc, .index] ++ faultParts
  | .fontAddress _ => [.pc, .status, .index]
  | .storeBcd _ => [.pc, .mem] ++ faultParts
  | .storeRegsToMem _ => [.pc, .mem] ++ faultParts
  | .loadRegsFromMem _ => [.pc, .regs] ++ faultParts

/-- The six instructions that write `VF` as flag output (R22, R43). -/
def writesFlag (i : Instr) : Bool :=
  match i with
  | .addCarry _ _ => true
  | .subBorrow _ _ => true
  | .subBorrowRev _ _ => true
  | .shiftRight _ _ => true
  | .shiftLeft _ _ => true
  | .draw _ _ _ => true
  | _ => false

/-- The registers an instruction writes as its destinations, apart from a flag in `VF` (R22, R43, R251). -/
def destinations (i : Instr) : List Reg :=
  match i with
  | .loadImm x _ => [x]
  | .addImm x _ => [x]
  | .copy x _ => [x]
  | .or x _ => [x]
  | .and x _ => [x]
  | .xor x _ => [x]
  | .addCarry x _ => [x]
  | .subBorrow x _ => [x]
  | .shiftRight x _ => [x]
  | .subBorrowRev x _ => [x]
  | .shiftLeft x _ => [x]
  | .random x _ => [x]
  | .storeDelay x => [x]
  | .waitKey x => [x]
  | .loadRegsFromMem x => (List.finRange 16).filter (· ≤ x)
  | _ => []

/-- The pixel at a row and a column: bit `7 - (c mod 8)` of `FB[r * 8 + (c div 8)]` (R34). -/
def pixel (fb : Screen) (r : Fin 32) (c : Fin 64) : Bool := (fb[r.val * 8 + c.val / 8]'(by omega)).getLsbD (7 - c.val % 8)

/-- The pixels a `draw` inverts (R213): those at row `(vy + i) mod 32`, column `(vx + j) mod 64` for a sprite row i < n and a j < 8 such that bit `7 - j` of
`MEM[I + i]` is 1. -/
def Inverts (s : State) (vx vy : Byte) (n : Nat) (r : Fin 32) (c : Fin 64) : Prop :=
  ∃ i j, i < n ∧ j < 8 ∧ r.val = (vy.toNat + i) % 32 ∧ c.val = (vx.toNat + j) % 64 ∧ (s.mem.read (s.index.toNat + i)).getLsbD (7 - j) = true

end Sys2Proof
end

