-- ==== Sys2Proof/Certificates/Slice0/Obligations.lean ====
section
/-! DEFINITION. The statements for the provers, each from the spec's rules. `∃ t, exec i s = .next t ∧ …` says that the instruction COMPLETES and what it
leaves; `CompletesWith parts s t` is the default advance with only `parts` changed, `TransfersTo` a transfer, `AbandonedWith` a fatal fault. -/

open Sys2Proof Sys2Proof.Machine

/-! ## Encoding -/

/-- R108: encoding is the inverse of decoding, for every instruction and every operand. -/
def Obligations.DecodeOfEncode : Prop := ∀ i : Instr, decode (encode i) = .ok i

/-- R92, R93: a word that decodes to an instruction is that instruction's word; no bit of it is dropped. -/
def Obligations.EncodeOfDecode : Prop := ∀ (w : Word) (i : Instr), decode w = .ok i → encode i = w

/-- R91, R92: the decoder exposes the word and its six fields; every word either decodes to an instruction, whose row of the opcode map (R96) it selects, or
selects no row and is rejected as unassigned. -/
def Obligations.DecodingIsTotalByTheMap : Prop :=
  ∀ w : Word,
    ((fieldsOf w).code = w ∧ (fieldsOf w).op.toNat = w.toNat / 0x1000 ∧ (fieldsOf w).x.toNat = w.toNat / 0x100 % 0x10 ∧
      (fieldsOf w).y.toNat = w.toNat / 0x10 % 0x10 ∧ (fieldsOf w).n.toNat = w.toNat % 0x10 ∧ (fieldsOf w).nn.toNat = w.toNat % 0x100 ∧
      (fieldsOf w).nnn.toNat = w.toNat % 0x1000 ∧ (fieldsOf w).wellFormed = true) ∧
    ((∃ i, decode w = .ok i ∧ rowOf i ∈ opcodeMap ∧ (rowOf i).selects w = true) ∨
    (decode w = .error (.unassigned w) ∧ ∀ r ∈ opcodeMap, r.selects w = false))

/-- R96: "The rows are pairwise disjoint, so order does not matter." -/
def Obligations.OpcodeRowsAreDisjoint : Prop :=
  opcodeMap.length = 34 ∧ opcodeMap.Nodup ∧
  ∀ w : Word, ∀ r₁ ∈ opcodeMap, ∀ r₂ ∈ opcodeMap, r₁.selects w = true → r₂.selects w = true → r₁ = r₂

/-- R96, R108: words written out from the patterns, one or more of every family, decode to the instructions they stand for. -/
def Obligations.WrittenWordsDecode : Prop :=
  WordMeans 0x00E0 .clear ∧ WordMeans 0x1204 (.jump 0x204) ∧ WordMeans 0x3A42 (.skipEqImm 0xA 0x42) ∧ WordMeans 0x6A3C (.loadImm 0xA 0x3C) ∧
  WordMeans 0x8127 (.subBorrowRev 1 2) ∧ WordMeans 0x812E (.shiftLeft 1 2) ∧ WordMeans 0xA300 (.loadIndex 0x300) ∧ WordMeans 0xC30F (.random 3 0x0F) ∧
  WordMeans 0xD125 (.draw 1 2 5) ∧ WordMeans 0xE7A1 (.skipIfNotPressed 7) ∧ WordMeans 0xF10A (.waitKey 1) ∧ WordMeans 0xF218 (.setSound 2) ∧
  WordMeans 0xFF65 (.loadRegsFromMem 0xF) ∧ WordUnassigned 0x5121 ∧ WordUnassigned 0x0123 ∧ WordUnassigned 0xF100

/-! ## The step -/

/-- R120: a clock that is not halted and whose fetch is inside memory runs the instruction that the word at `PC` decodes to, and nothing around it. -/
def Obligations.StepRunsDecodedInstruction : Prop :=
  ∀ (s : State) (i : Instr), s.halted = false → s.pc.toNat ≤ 0xFFD → decode (wordAtPc s) = .ok i → step s = exec i s

/-- R98: an unassigned word executes as a no-operation and is reported. -/
def Obligations.UnassignedWordOnlyReports : Prop :=
  ∀ s : State, s.halted = false → s.pc.toNat ≤ 0xFFD → (∀ r ∈ opcodeMap, r.selects (wordAtPc s) = false) →
    ∃ t, step s = .next t ∧ t.pc = s.pc + 2 ∧ t.status = .invalidOpcode (wordAtPc s) ∧ UnchangedExcept [.pc, .status] s t

/-- R121 (decision D6): the fetch faults on `PC`, or on `PC + 1` when `PC` is the last byte of memory, whatever lies there. -/
def Obligations.FetchOutsideMemoryFaults : Prop :=
  ∀ s : State, s.halted = false →
    (0xFFF ≤ s.pc.toNat → ∃ t, step s = .next t ∧ AbandonedWith (.invalidAddress s.pc) s t) ∧
    (s.pc = 0xFFE → ∃ t, step s = .next t ∧ AbandonedWith (.invalidAddress 0xFFF) s t)

/-- R124 (decision D7): while halted, a clock changes nothing and reports the recorded fault again. -/
def Obligations.HaltedClockOnlyReports : Prop :=
  ∀ s : State, s.halted = true → ∃ t, step s = .next t ∧ t.status = .fault s.fault ∧ UnchangedExcept [.status] s t

/-- R126, R304 (decision D7): a step that ends halted has recorded one fault and changed nothing else, `PC` included. -/
def Obligations.FatalFaultsArePrecise : Prop :=
  ∀ s t : State, s.halted = false → step s = .next t → t.halted = true → ∃ c, c ≠ .none ∧ AbandonedWith c s t

/-- R129: every clock answers a next state. -/
def Obligations.EveryClockAnswers : Prop := ∀ s : State, ∃ t, step s = .next t

/-- R128: the status a step returns. -/
def Obligations.StatusOfAStep : Prop :=
  ∀ s t : State, s.halted = false → step s = .next t →
    (t.halted = true ∧ t.status = .fault t.fault) ∨
    (t.halted = false ∧ t.status = .ok ∧ ∃ i, decode (wordAtPc s) = .ok i) ∨
    (t.halted = false ∧ t.status = .invalidOpcode (wordAtPc s) ∧ decode (wordAtPc s) = .error (.unassigned (wordAtPc s)))

/-- R302: which instruction can raise what, exhaustively, after a successful fetch. -/
def Obligations.OnlyTheseInstructionsFault : Prop :=
  ∀ s t : State, s.halted = false → s.pc.toNat ≤ 0xFFD → step s = .next t → t.halted = true →
    ∃ i, decode (wordAtPc s) = .ok i ∧
      match i with
      | .call _ => t.fault = .stackOverflow
      | .ret => t.fault = .stackUnderflow
      | .draw _ _ n => 0 < n.val ∧ ∃ a, t.fault = .invalidAddress a
      | .storeBcd _ => ∃ a, t.fault = .invalidAddress a
      | .storeRegsToMem _ => ∃ a, t.fault = .invalidAddress a
      | .loadRegsFromMem _ => ∃ a, t.fault = .invalidAddress a
      | .addIndexFromReg _ => ∃ a, t.fault = .invalidAddress a
      | _ => False

/-- R330: under its fault-free condition an instruction completes with status `Ok` and does not halt; without it, it halts. -/
def Obligations.FaultFreeConditionsAreExact : Prop :=
  ∀ (i : Instr) (s : State), s.halted = false →
    ∃ t, exec i s = .next t ∧ (FaultFree i s → t.halted = false ∧ t.status = .ok) ∧ (¬ FaultFree i s → t.halted = true)

/-! ## Invariants -/

/-- The reset state meets the invariant. -/
def Obligations.ResetMeetsInvariant : Prop := Inv State.reset

/-- Every clock keeps the invariant, from every state that has it (R27, R29, R40, R141). -/
def Obligations.StepKeepsInvariant : Prop := ∀ s t : State, Inv s → step s = .next t → Inv t

/-- Every interleaving of host operations keeps the invariant (R14). -/
def Obligations.HostSchedulesKeepInvariant : Prop := ∀ (ops : List HostOp) (s : State), Inv s → Inv (runOps ops s)

/-- R7: `LEGACY_SHIFT` is constant whatever runs, and no instruction but the two shifts reads it. -/
def Obligations.OnlyShiftsReadLegacyShift : Prop :=
  (∀ (ops : List HostOp) (s : State), (runOps ops s).legacyShift = s.legacyShift) ∧
  (∀ (i : Instr) (s t : State) (b : Bool), (∀ x y, i ≠ .shiftRight x y) → (∀ x y, i ≠ .shiftLeft x y) →
    exec i s = .next t → exec i { s with legacyShift := b } = .next { t with legacyShift := b })

/-! ## What instructions may write -/

/-- R20: an instruction changes no part of the state that the "written by" column does not give it. -/
def Obligations.InstructionsWriteOnlyTheirState : Prop :=
  ∀ (i : Instr) (s t : State), exec i s = .next t → UnchangedExcept (mayWrite i) s t

/-- R22, R43: an instruction changes no register but its destinations and, for the six flag writers, `VF`. -/
def Obligations.OnlyDestinationRegistersChange : Prop :=
  ∀ (i : Instr) (s t : State), exec i s = .next t →
    ∀ r : Reg, r ∉ destinations i → (r = 15 → writesFlag i = false) → t.reg r = s.reg r

/-- R22: the instructions that write `VF` as flag output write 0 or 1 there (unless `VF` is also the destination, or the step faults); every other
instruction leaves it unless it names it. -/
def Obligations.FlagIsWrittenByExactlySix : Prop :=
  ∀ (i : Instr) (s t : State), s.halted = false → exec i s = .next t → t.halted = false → (15 : Reg) ∉ destinations i →
    (writesFlag i = true → t.reg 15 = 0 ∨ t.reg 15 = 1) ∧ (writesFlag i = false → t.reg 15 = s.reg 15)

/-- R35, R36, R38: a clock never changes the keys, `ACK` or the legacy-shift level and never clears `DRAWN`; a timer changes in a clock only by its own load
instruction. -/
def Obligations.ClockLeavesHostOwnedState : Prop :=
  ∀ s t : State, step s = .next t →
    t.key = s.key ∧ t.ack = s.ack ∧ (s.drawn = true → t.drawn = true) ∧
    (t.dt ≠ s.dt → ∃ x, decode (wordAtPc s) = .ok (.setDelay x)) ∧ (t.st ≠ s.st → ∃ x, decode (wordAtPc s) = .ok (.setSound x))

/-! ## Screen/control, jumps, calls, skips -/

/-- R140. -/
def Obligations.ClearZeroesTheScreen : Prop :=
  WordMeans 0x00E0 .clear ∧
  ∀ s : State, ∃ t, exec .clear s = .next t ∧ CompletesWith [.fb, .drawn] s t ∧ (∀ k : Fin 256, t.fb[k] = 0) ∧ t.drawn = true

/-- R141: with a call on the stack, `return` ends 2 above its address, exactly, and pops it; the slot is not cleared. With an empty stack it faults. A `call`
and then `return` restores `PC` to the instruction after the `call`. -/
def Obligations.ReturnPopsTheStack : Prop :=
  WordMeans 0x00EE .ret ∧
  ∀ s : State,
    (∀ k : Fin 16, s.sp.val = k.val + 1 → ∃ t, exec .ret s = .next t ∧ TransfersTo (s.stack[k] + 2) [.sp] s t ∧ t.sp.val = k.val ∧
      (s.stack[k].toNat ≤ 0xFFD → t.pc.toNat = s.stack[k].toNat + 2)) ∧
    (s.sp.val = 0 → ∃ t, exec .ret s = .next t ∧ AbandonedWith .stackUnderflow s t) ∧
    (∀ nnn : BitVec 12, s.sp.val ≤ 15 → ∃ t u, exec (.call nnn) s = .next t ∧ exec .ret t = .next u ∧ u.pc = s.pc + 2 ∧ u.sp = s.sp)

/-- R142: any 12-bit target, unchecked; `jump 0xFFF` completes and the next clock faults at fetch. -/
def Obligations.JumpSetsThePc : Prop :=
  ∀ (nnn : BitVec 12) (s : State),
    WordMeans (0x1000 + nnn.toNat) (.jump nnn) ∧
    ∃ t, exec (.jump nnn) s = .next t ∧ TransfersTo (BitVec.ofNat 16 nnn.toNat) [] s t ∧
      (nnn = 0xFFF → s.halted = false → ∃ u, step t = .next u ∧ AbandonedWith (.invalidAddress 0xFFF) t u)

/-- R143: with a free slot, `call` pushes its own address and jumps; with 16 occupied slots it faults. -/
def Obligations.CallPushesItsAddress : Prop :=
  ∀ (nnn : BitVec 12) (s : State),
    WordMeans (0x2000 + nnn.toNat) (.call nnn) ∧
    (∀ k : Fin 16, s.sp.val = k.val → ∃ t, exec (.call nnn) s = .next t ∧
      TransfersTo (BitVec.ofNat 16 nnn.toNat) [.sp, .stack] s t ∧ t.sp.val = k.val + 1 ∧
      ∀ j : Fin 16, t.stack[j] = if j = k then s.pc else s.stack[j]) ∧
    (s.sp.val = 16 → ∃ t, exec (.call nnn) s = .next t ∧ AbandonedWith .stackOverflow s t)

/-- R144 (decision D30): the sum of the target and `V0`, exact in 16 bits, never masked. -/
def Obligations.JumpZeroAddsVZero : Prop :=
  ∀ (nnn : BitVec 12) (s : State),
    WordMeans (0xB000 + nnn.toNat) (.jump0 nnn) ∧
    ∃ t a, exec (.jump0 nnn) s = .next t ∧ TransfersTo a [] s t ∧ a.toNat = nnn.toNat + (s.reg 0).toNat

/-- R145, R146; a taken skip at the last address an instruction can start at completes, and the next clock faults. -/
def Obligations.ImmediateSkips : Prop :=
  ∀ (x : Reg) (nn : Byte) (s : State),
    WordMeans (0x3000 + x.val * 0x100 + nn.toNat) (.skipEqImm x nn) ∧ WordMeans (0x4000 + x.val * 0x100 + nn.toNat) (.skipNeImm x nn) ∧
    (∃ t, exec (.skipEqImm x nn) s = .next t ∧ TransfersTo (if s.reg x = nn then s.pc + 4 else s.pc + 2) [] s t ∧
      (s.reg x = nn → s.pc = 0xFFD → s.halted = false → ∃ u, step t = .next u ∧ AbandonedWith (.invalidAddress 0x1001) t u)) ∧
    (∃ t, exec (.skipNeImm x nn) s = .next t ∧ TransfersTo (if s.reg x = nn then s.pc + 2 else s.pc + 4) [] s t)

/-- R147, R148, the words with a nonzero last nibble unassigned. -/
def Obligations.RegisterSkips : Prop :=
  ∀ (x y : Reg) (s : State),
    WordMeans (0x5000 + x.val * 0x100 + y.val * 0x10) (.skipEqReg x y) ∧ WordMeans (0x9000 + x.val * 0x100 + y.val * 0x10) (.skipNeReg x y) ∧
    (∀ n : Fin 16, n ≠ 0 → WordUnassigned (0x5000 + x.val * 0x100 + y.val * 0x10 + n.val) ∧
      WordUnassigned (0x9000 + x.val * 0x100 + y.val * 0x10 + n.val)) ∧
    (∃ t, exec (.skipEqReg x y) s = .next t ∧ TransfersTo (if s.reg x = s.reg y then s.pc + 4 else s.pc + 2) [] s t) ∧
    (∃ t, exec (.skipNeReg x y) s = .next t ∧ TransfersTo (if s.reg x = s.reg y then s.pc + 2 else s.pc + 4) [] s t)

/-- R150: whatever the subroutine did, if it returns at the depth and with the slot its `call` left, execution goes on 2 above the `call`. -/
def Obligations.BalancedCallAndReturn : Prop :=
  ∀ (nnn : BitVec 12) (s t u : State) (k : Fin 16), s.sp.val = k.val → exec (.call nnn) s = .next t →
    u.sp = t.sp → u.stack[k] = t.stack[k] →
    ∃ r, exec .ret u = .next r ∧ r.pc = s.pc + 2 ∧ r.sp = s.sp ∧ r.halted = u.halted

/-! ## Load, ALU, shifts -/

/-- R160, R161: the destination receives the byte or the wrapped sum; with x = 15 that is `VF`; no flag. -/
def Obligations.ImmediateLoadAndAdd : Prop :=
  ∀ (x : Reg) (nn : Byte) (s : State),
    WordMeans (0x6000 + x.val * 0x100 + nn.toNat) (.loadImm x nn) ∧ WordMeans (0x7000 + x.val * 0x100 + nn.toNat) (.addImm x nn) ∧
    (∃ t, exec (.loadImm x nn) s = .next t ∧ CompletesWith [.regs] s t ∧ ∀ r, t.reg r = if r = x then nn else s.reg r) ∧
    (∃ t, exec (.addImm x nn) s = .next t ∧ CompletesWith [.regs] s t ∧
      (t.reg x).toNat = ((s.reg x).toNat + nn.toNat) % 256 ∧ ∀ r, r ≠ x → t.reg r = s.reg r)

/-- R162 to R165: copy and the bitwise operations, no flag. -/
def Obligations.CopyAndBitwise : Prop :=
  ∀ (x y : Reg) (s : State),
    (WordMeans (0x8000 + x.val * 0x100 + y.val * 0x10) (.copy x y) ∧ WordMeans (0x8001 + x.val * 0x100 + y.val * 0x10) (.or x y) ∧
      WordMeans (0x8002 + x.val * 0x100 + y.val * 0x10) (.and x y) ∧ WordMeans (0x8003 + x.val * 0x100 + y.val * 0x10) (.xor x y)) ∧
    (∃ t, exec (.copy x y) s = .next t ∧ CompletesWith [.regs] s t ∧ ∀ r, t.reg r = if r = x then s.reg y else s.reg r) ∧
    (∃ t, exec (.or x y) s = .next t ∧ CompletesWith [.regs] s t ∧ ∀ r, t.reg r = if r = x then s.reg x ||| s.reg y else s.reg r) ∧
    (∃ t, exec (.and x y) s = .next t ∧ CompletesWith [.regs] s t ∧ ∀ r, t.reg r = if r = x then s.reg x &&& s.reg y else s.reg r) ∧
    (∃ t, exec (.xor x y) s = .next t ∧ CompletesWith [.regs] s t ∧ ∀ r, t.reg r = if r = x then s.reg x ^^^ s.reg y else s.reg r)

/-- R166: the carry first, the sum second, so that with x = 15 the sum stays. -/
def Obligations.AddCarrySumAndFlag : Prop :=
  ∀ (x y : Reg) (s : State),
    WordMeans (0x8004 + x.val * 0x100 + y.val * 0x10) (.addCarry x y) ∧
    ∃ t, exec (.addCarry x y) s = .next t ∧ CompletesWith [.regs] s t ∧
      (t.reg x).toNat = ((s.reg x).toNat + (s.reg y).toNat) % 256 ∧
      (x ≠ 15 → t.reg 15 = if 256 ≤ (s.reg x).toNat + (s.reg y).toNat then 1 else 0) ∧
      ∀ r, r ≠ x → r ≠ 15 → t.reg r = s.reg r

/-- R167, R168: `VF` is 1 when there is no borrow, then the difference. -/
def Obligations.SubtractionsAndNoBorrowFlag : Prop :=
  ∀ (x y : Reg) (s : State),
    WordMeans (0x8005 + x.val * 0x100 + y.val * 0x10) (.subBorrow x y) ∧ WordMeans (0x8007 + x.val * 0x100 + y.val * 0x10) (.subBorrowRev x y) ∧
    (∃ t, exec (.subBorrow x y) s = .next t ∧ CompletesWith [.regs] s t ∧
      (t.reg x).toNat = ((s.reg x).toNat + 256 - (s.reg y).toNat) % 256 ∧
      (x ≠ 15 → t.reg 15 = if (s.reg y).toNat ≤ (s.reg x).toNat then 1 else 0) ∧ ∀ r, r ≠ x → r ≠ 15 → t.reg r = s.reg r) ∧
    (∃ t, exec (.subBorrowRev x y) s = .next t ∧ CompletesWith [.regs] s t ∧
      (t.reg x).toNat = ((s.reg y).toNat + 256 - (s.reg x).toNat) % 256 ∧
      (x ≠ 15 → t.reg 15 = if (s.reg x).toNat ≤ (s.reg y).toNat then 1 else 0) ∧ ∀ r, r ≠ x → r ≠ 15 → t.reg r = s.reg r)

/-- R175, R176, R178 (decisions D9, D10), for either level of `LEGACY_SHIFT`: the bit shifted out, then the shifted source. -/
def Obligations.ShiftsOfTheSelectedSource : Prop :=
  ∀ (x y : Reg) (s : State) (src : Byte), src = (if s.legacyShift = true then s.reg y else s.reg x) →
    (∃ t, exec (.shiftRight x y) s = .next t ∧ CompletesWith [.regs] s t ∧ (t.reg x).toNat = src.toNat / 2 ∧
      (x ≠ 15 → (t.reg 15).toNat = src.toNat % 2) ∧ ∀ r, r ≠ x → r ≠ 15 → t.reg r = s.reg r) ∧
    (∃ t, exec (.shiftLeft x y) s = .next t ∧ CompletesWith [.regs] s t ∧ (t.reg x).toNat = src.toNat * 2 % 256 ∧
      (x ≠ 15 → (t.reg 15).toNat = src.toNat / 128) ∧ ∀ r, r ≠ x → r ≠ 15 → t.reg r = s.reg r)

/-- R180: add then subtract with the same operands, x, y and 15 three different registers: `Vx` is restored, and `VF` ends 1 exactly when the addition did
not carry. -/
def Obligations.AddThenSubtractRestores : Prop :=
  ∀ (x y : Reg) (s t : State), x ≠ y → x ≠ 15 → y ≠ 15 → exec (.addCarry x y) s = .next t →
    ∃ u, exec (.subBorrow x y) t = .next u ∧ u.reg x = s.reg x ∧ (u.reg 15 = 1 ↔ t.reg 15 = 0)

/-! ## Index, font, random -/

/-- R190, R195 (decisions D11, D23): `I` receives the 12-bit operand, unchecked, or five times the whole byte. -/
def Obligations.IndexLoads : Prop :=
  (∀ (nnn : BitVec 12) (s : State), ∃ t, exec (.loadIndex nnn) s = .next t ∧ CompletesWith [.index] s t ∧ t.index.toNat = nnn.toNat) ∧
  (∀ (x : Reg) (s : State), ∃ t, exec (.fontAddress x) s = .next t ∧ CompletesWith [.index] s t ∧ t.index.toNat = (s.reg x).toNat * 5)

/-- R192 (decision D22): the exact sum is checked against memory; no flag. The info field of a fault is the sum in 16 bits. -/
def Obligations.AddIndexIsChecked : Prop :=
  ∀ (x : Reg) (s : State),
    (s.index.toNat + (s.reg x).toNat ≤ 0xFFE → ∃ t, exec (.addIndexFromReg x) s = .next t ∧ CompletesWith [.index] s t ∧
      t.index.toNat = s.index.toNat + (s.reg x).toNat) ∧
    (0xFFF ≤ s.index.toNat + (s.reg x).toNat → ∃ t a, exec (.addIndexFromReg x) s = .next t ∧ AbandonedWith (.invalidAddress a) s t ∧
      (s.index.toNat ≤ 0xFFF → a.toNat = s.index.toNat + (s.reg x).toNat))

/-- R199 (decision D20): one fresh sample of the free input `RAND`, masked; whatever the sample, no bit outside nn is set. -/
def Obligations.RandomIsAMaskedSample : Prop :=
  ∀ (x : Reg) (nn : Byte) (s : State), ∃ t, exec (.random x nn) s = .next t ∧ CompletesWith [.regs, .draws] s t ∧
    t.reg x = Config.rand s.draws &&& nn ∧ t.reg x &&& ~~~nn = 0 ∧ t.draws = s.draws + 1 ∧ ∀ r, r ≠ x → t.reg r = s.reg r

/-! ## Draw -/

/-- R210, R213: a `draw` whose sprite lies in memory inverts exactly the pixels under the sprite's 1 bits, with wrap-around in both directions; `VF` is 1 exactly
when one of them was lit; `DRAWN` is set. -/
def Obligations.DrawInvertsTheSpritePixels : Prop :=
  ∀ (x y : Reg) (n : Fin 16) (s : State), n.val = 0 ∨ s.index.toNat + n.val - 1 ≤ 0xFFE →
    ∃ t, exec (.draw x y n) s = .next t ∧ CompletesWith [.regs, .fb, .drawn] s t ∧ t.drawn = true ∧
      (∀ (r : Fin 32) (c : Fin 64),
        (Inverts s (s.reg x) (s.reg y) n.val r c → pixel t.fb r c = !pixel s.fb r c) ∧
        (¬ Inverts s (s.reg x) (s.reg y) n.val r c → pixel t.fb r c = pixel s.fb r c)) ∧
      ((∃ r c, Inverts s (s.reg x) (s.reg y) n.val r c ∧ pixel s.fb r c = true) → t.reg 15 = 1) ∧
      ((¬ ∃ r c, Inverts s (s.reg x) (s.reg y) n.val r c ∧ pixel s.fb r c = true) → t.reg 15 = 0) ∧
      ∀ r, r ≠ 15 → t.reg r = s.reg r

/-- R68, R210 (decision D25): a sprite that leaves memory faults with the lowest offending address, nothing drawn. -/
def Obligations.DrawFaultsBeforeDrawing : Prop :=
  ∀ (x y : Reg) (n : Fin 16) (s : State), 0 < n.val → 0xFFE < s.index.toNat + n.val - 1 →
    ∃ t, exec (.draw x y n) s = .next t ∧ AbandonedWith (.invalidAddress (if s.index.toNat ≤ 0xFFF then 0xFFF else s.index)) s t

/-- R215 (decision D25): zero rows read nothing, wherever `I` points: `VF` 0, `DRAWN` 1, the screen unchanged. -/
def Obligations.DrawOfZeroRows : Prop :=
  ∀ (x y : Reg) (s : State), ∃ t, exec (.draw x y 0) s = .next t ∧ CompletesWith [.regs, .drawn] s t ∧ t.drawn = true ∧ t.reg 15 = 0 ∧
    ∀ r, r ≠ 15 → t.reg r = s.reg r

/-- R218: the same draw twice restores the screen; on a dark screen a sprite with a 1 bit makes the second draw report a collision, the first none. -/
def Obligations.DrawTwiceRestoresTheScreen : Prop :=
  ∀ (x y : Reg) (n : Fin 16) (s t : State), x ≠ 15 → y ≠ 15 → n.val = 0 ∨ s.index.toNat + n.val - 1 ≤ 0xFFE → exec (.draw x y n) s = .next t →
    ∃ u, exec (.draw x y n) t = .next u ∧ u.fb = s.fb ∧
      ((∀ k : Fin 256, s.fb[k] = 0) → (∃ i, i < n.val ∧ s.mem.read (s.index.toNat + i) ≠ 0) → t.reg 15 = 0 ∧ u.reg 15 = 1)

/-! ## Keys and timers -/

/-- R230, R231 (decision D12): the key named by the low four bits of `Vx`. -/
def Obligations.KeySkips : Prop :=
  ∀ (x : Reg) (s : State),
    (∃ t, exec (.skipIfPressed x) s = .next t ∧ TransfersTo (if s.key.getLsbD ((s.reg x).toNat % 16) then s.pc + 4 else s.pc + 2) [] s t) ∧
    (∃ t, exec (.skipIfNotPressed x) s = .next t ∧ TransfersTo (if s.key.getLsbD ((s.reg x).toNat % 16) then s.pc + 2 else s.pc + 4) [] s t)

/-- R232: the least pressed key into `Vx` and on; with no key pressed `PC` stays and nothing changes. -/
def Obligations.WaitKeyTakesTheLeastKey : Prop :=
  ∀ (x : Reg) (s : State),
    WordMeans (0xF00A + x.val * 0x100) (.waitKey x) ∧
    (∀ k : Fin 16, s.key.getLsbD k.val = true → (∀ j : Fin 16, j < k → s.key.getLsbD j.val = false) →
      ∃ t, exec (.waitKey x) s = .next t ∧ CompletesWith [.regs] s t ∧ (t.reg x).toNat = k.val ∧ ∀ r, r ≠ x → t.reg r = s.reg r) ∧
    (s.key = 0 → ∃ t, exec (.waitKey x) s = .next t ∧ TransfersTo s.pc [] s t)

/-- R240 to R242: the three moves between a register and a timer. -/
def Obligations.TimerMoves : Prop :=
  ∀ (x : Reg) (s : State),
    (WordMeans (0xF007 + x.val * 0x100) (.storeDelay x) ∧ WordMeans (0xF015 + x.val * 0x100) (.setDelay x) ∧
      WordMeans (0xF018 + x.val * 0x100) (.setSound x)) ∧
    (∃ t, exec (.storeDelay x) s = .next t ∧ CompletesWith [.regs] s t ∧ ∀ r, t.reg r = if r = x then s.dt else s.reg r) ∧
    (∃ t, exec (.setDelay x) s = .next t ∧ CompletesWith [.dt] s t ∧ t.dt = s.reg x) ∧
    (∃ t, exec (.setSound x) s = .next t ∧ CompletesWith [.st] s t ∧ t.st = s.reg x)

/-- R36, R242, R240: no instruction's effect depends on `ST`, and only `store-delay`'s depends on `DT`: two states that differ in a timer stay so (or agree,
after the timer's own load). -/
def Obligations.OnlyStoreDelayReadsATimer : Prop :=
  ∀ (i : Instr) (s t : State) (b : Byte), exec i s = .next t →
    ((∀ x, i ≠ .setSound x) → exec i { s with st := b } = .next { t with st := b }) ∧
    ((∀ x, i ≠ .setDelay x) → (∀ x, i ≠ .storeDelay x) → exec i { s with dt := b } = .next { t with dt := b }) ∧
    ((∃ x, i = .setSound x) → exec i { s with st := b } = .next t) ∧ ((∃ x, i = .setDelay x) → exec i { s with dt := b } = .next t)

/-! ## Memory block moves -/

/-- R250: `V0` to `Vx` at `I` upward, every other address unchanged; or a fault with the lowest offending address and nothing written. The stored bytes are read
back in a memory in canonical form (an invariant, `StepKeepsInvariant`). -/
def Obligations.BlockStore : Prop :=
  ∀ (x : Reg) (s : State),
    WordMeans (0xF055 + x.val * 0x100) (.storeRegsToMem x) ∧
    (s.index.toNat + x.val ≤ 0xFFE → ∃ t, exec (.storeRegsToMem x) s = .next t ∧ CompletesWith [.mem] s t ∧
      (∀ a, (∀ k : Reg, k ≤ x → a ≠ dataAddr s k.val) → t.mem.read a = s.mem.read a) ∧
      (s.mem.wf = true → ∀ k : Reg, k ≤ x → t.mem.read (dataAddr s k.val) = s.reg k)) ∧
    (0xFFF ≤ s.index.toNat + x.val → ∃ t, exec (.storeRegsToMem x) s = .next t ∧
      AbandonedWith (.invalidAddress (if s.index.toNat ≤ 0xFFF then 0xFFF else s.index)) s t)

/-- R78 (decision D28): a block store over the instruction that follows it is seen by the very next fetch, with no action needed. -/
def Obligations.NextFetchSeesTheStore : Prop :=
  ∀ (x k m : Reg) (s t : State), s.mem.wf = true → s.pc.toNat ≤ 0xFFB → s.index.toNat + x.val ≤ 0xFFE → m ≤ x → m.val = k.val + 1 →
    dataAddr s k.val = s.pc.toNat + 2 → exec (.storeRegsToMem x) s = .next t →
    t.pc = s.pc + 2 ∧ wordAtPc t = wordOfBytes (s.reg k) (s.reg m) ∧
      (∀ i, t.halted = false → decode (wordOfBytes (s.reg k) (s.reg m)) = .ok i → step t = exec i t)

/-- R251: `V0` to `Vx` from `I` upward, the registers above x and all of memory unchanged; or a fault and no register written. -/
def Obligations.BlockLoad : Prop :=
  ∀ (x : Reg) (s : State),
    WordMeans (0xF065 + x.val * 0x100) (.loadRegsFromMem x) ∧
    (s.index.toNat + x.val ≤ 0xFFE → ∃ t, exec (.loadRegsFromMem x) s = .next t ∧ CompletesWith [.regs] s t ∧
      ∀ k : Reg, t.reg k = if k ≤ x then s.mem.read (dataAddr s k.val) else s.reg k) ∧
    (0xFFF ≤ s.index.toNat + x.val → ∃ t, exec (.loadRegsFromMem x) s = .next t ∧
      AbandonedWith (.invalidAddress (if s.index.toNat ≤ 0xFFF then 0xFFF else s.index)) s t)

/-- R252: hundreds, tens, ones at `I`, `I + 1`, `I + 2`, every other address unchanged; or a fault and nothing written. -/
def Obligations.BcdStore : Prop :=
  ∀ (x : Reg) (s : State),
    WordMeans (0xF033 + x.val * 0x100) (.storeBcd x) ∧
    (s.index.toNat ≤ 0xFFC → ∃ t, exec (.storeBcd x) s = .next t ∧ CompletesWith [.mem] s t ∧
      (∀ a, a ≠ dataAddr s 0 → a ≠ dataAddr s 1 → a ≠ dataAddr s 2 → t.mem.read a = s.mem.read a) ∧
      (s.mem.wf = true → (t.mem.read (dataAddr s 0)).toNat = (s.reg x).toNat / 100 ∧
        (t.mem.read (dataAddr s 1)).toNat = (s.reg x).toNat / 10 % 10 ∧ (t.mem.read (dataAddr s 2)).toNat = (s.reg x).toNat % 10)) ∧
    (0xFFD ≤ s.index.toNat → ∃ t, exec (.storeBcd x) s = .next t ∧
      AbandonedWith (.invalidAddress (if s.index.toNat ≤ 0xFFF then 0xFFF else s.index)) s t)

/-- R257: a block load after a block store with the same `I` and the block's bytes as stored gives the registers back. -/
def Obligations.BlockStoreThenLoad : Prop :=
  ∀ (x : Reg) (s t u : State), s.mem.wf = true → s.index.toNat + x.val ≤ 0xFFE → exec (.storeRegsToMem x) s = .next t →
    u.index = s.index → (∀ k : Reg, k ≤ x → u.mem.read (dataAddr s k.val) = t.mem.read (dataAddr s k.val)) →
    ∃ r, exec (.loadRegsFromMem x) u = .next r ∧ ∀ k : Reg, k ≤ x → r.reg k = s.reg k

/-! ## Host operations and reset -/

/-- R271: up to 3583 bytes are copied in order to 0x200 upward and nothing else changes; more are refused and nothing changes. -/
def Obligations.HostLoad : Prop :=
  ∀ (bytes : List Byte) (s : State),
    (bytes.length ≤ 3583 → (load bytes s).2 = .ok ∧ UnchangedExcept [.mem] s (load bytes s).1 ∧
      (∀ a, a < 0x200 ∨ 0x200 + bytes.length ≤ a → (load bytes s).1.mem.read a = s.mem.read a) ∧
      (s.mem.wf = true → ∀ (k : Nat) (hk : k < bytes.length), (load bytes s).1.mem.read (0x200 + k) = bytes[k])) ∧
    (3583 < bytes.length → load bytes s = (s, .romTooLarge))

/-- R276: both timers count down with saturation, every key is cleared, `DRAWN` and `ACK` are cleared when `ACK` was set; nothing else. -/
def Obligations.TickCountsDown : Prop :=
  ∀ s : State, UnchangedExcept [.dt, .st, .key, .drawn, .ack] s (tick s) ∧
    (tick s).dt.toNat = s.dt.toNat - 1 ∧ (tick s).st.toNat = s.st.toNat - 1 ∧ (∀ k, (tick s).key.getLsbD k = false) ∧
    (s.ack = true → (tick s).drawn = false ∧ (tick s).ack = false) ∧ (s.ack = false → (tick s).drawn = s.drawn ∧ (tick s).ack = false)

/-- R277, R278, R279, R281 (decisions D21, D31): `set_key` writes one key, `acknowledge_draw` sets `ACK`, the reads change nothing. -/
def Obligations.KeysAcknowledgeAndReads : Prop :=
  ∀ s : State,
    (∀ (k j : Fin 16) (p : Bool), (setKey k p s).key.getLsbD j.val = (if j = k then p else s.key.getLsbD j.val) ∧
      UnchangedExcept [.key] s (setKey k p s)) ∧
    ((acknowledgeDraw s).ack = true ∧ UnchangedExcept [.ack] s (acknowledgeDraw s)) ∧
    operate .drawReady s = (s, .flag s.drawn) ∧ operate .framebuffer s = (s, .screen s.fb) ∧
    operate .delay s = (s, .timer s.dt) ∧ operate .sound s = (s, .timer s.st)

/-- R280: once `DRAWN` is set it stays set, whatever the schedule, until the host acknowledges (or resets). -/
def Obligations.DrawnStaysUntilAcknowledged : Prop :=
  ∀ (ops : List HostOp) (s : State), HostOp.acknowledgeDraw ∉ ops → HostOp.reset ∉ ops → s.drawn = true → s.ack = false →
    (runOps ops s).drawn = true ∧ (runOps ops s).ack = false

/-- R285, R307 (decisions D7, D29): no schedule without a reset leaves the halted state, changes the recorded fault or runs an instruction. -/
def Obligations.OnlyResetLeavesHalted : Prop :=
  ∀ (ops : List HostOp) (s : State), HostOp.reset ∉ ops → s.halted = true →
    (runOps ops s).halted = true ∧
      UnchangedExcept [.mem, .dt, .st, .key, .drawn, .ack, .status] s (runOps ops s)

/-- R46, R340, R341 (decision D13): the values after reset, from any state; the font wherever it is defined to be, zero above it. The `LEGACY_SHIFT` input keeps its
level. `FAULT`, which the spec leaves unspecified, is not spoken of. -/
def Obligations.ResetValues : Prop :=
  ∀ s t : State, (t = State.reset ∨ t = (operate .reset s).1) →
    (∀ r, t.reg r = 0) ∧ t.index = 0 ∧ t.pc = 0x200 ∧ t.sp.val = 0 ∧ (∀ k : Fin 16, t.stack[k] = 0) ∧
    (∀ a, a < 80 → t.mem.read a = font.getD a 0) ∧ (∀ a, 80 ≤ a → t.mem.read a = 0) ∧ (∀ k : Fin 256, t.fb[k] = 0) ∧ t.key = 0 ∧
    t.dt = 0 ∧ t.st = 0 ∧ t.drawn = false ∧ t.ack = false ∧ t.halted = false ∧ (operate .reset s).1.legacyShift = s.legacyShift

/-! ## The end of a run -/

/-- R16, with the model's own end-of-run predicate `runPhase` (log entry 23): when the program has reached a `jump` to itself (`finished`) or a fatal fault has
halted the core (`faulted`), a clock answers a next state, and no schedule without a `load` or a reset takes the run out of that phase, changes `PC`, a register,
memory or the screen, or runs anything but that `jump`. -/
def Obligations.EndedRunStaysEnded : Prop :=
  (∀ s : State, runPhase s = .finished → ∃ t, step s = .next t ∧ t.status = .ok ∧ UnchangedExcept [.status] s t) ∧
  (∀ s : State, runPhase s = .faulted → ∃ t, step s = .next t ∧ t.status = .fault s.fault ∧ UnchangedExcept [.status] s t) ∧
  ∀ (ops : List HostOp) (s : State), HostOp.reset ∉ ops → (∀ bytes, HostOp.load bytes ∉ ops) → runPhase s ≠ .running →
    runPhase (runOps ops s) = runPhase s ∧ UnchangedExcept [.dt, .st, .key, .drawn, .ack, .status] s (runOps ops s)

/-- R16, R142: the run is `finished` exactly when, not halted, `PC` holds the address (at most 0xFFD) of a `jump` whose target is that address. -/
def Obligations.FinishedMeansAtASelfJump : Prop :=
  ∀ s : State, runPhase s = .finished ↔
    s.halted = false ∧ s.pc.toNat ≤ 0xFFD ∧ ∃ nnn : BitVec 12, decode (wordAtPc s) = .ok (.jump nnn) ∧ nnn.toNat = s.pc.toNat
end

