-- ==== Sys2Proof/Laws/Decode.lean ====
section
/-! SUPPORT. What the fields of an encoded word are, format by format, and that the bytes of a word give the word back. -/

namespace Sys2Proof

@[simp] theorem wordOfBytes_high_low (w : Word) : wordOfBytes (highByte w) (lowByte w) = w := by
  apply BitVec.eq_of_getLsbD_eq
  intro i hi
  simp only [wordOfBytes, highByte, lowByte, BitVec.getLsbD_append, BitVec.getLsbD_extractLsb']
  by_cases h : i < 8
  · simp [h]
  · have h' : i - 8 < 8 := by omega
    have h'' : 8 + (i - 8) = i := by omega
    simp [h, h', h'']

/-- The fields of every word agree where they overlap (R92). -/
theorem fieldsOf_wellFormed (w : Word) : (fieldsOf w).wellFormed = true := by
  have hnn : w.extractLsb' 0 8 = w.extractLsb' 4 4 ++ w.extractLsb' 0 4 := by
    apply BitVec.eq_of_getLsbD_eq
    intro i hi
    simp only [BitVec.getLsbD_append, BitVec.getLsbD_extractLsb']
    by_cases h : i < 4
    · simp [h, hi]
    · have h' : i - 4 < 4 := by omega
      have h'' : 4 + (i - 4) = i := by omega
      simp [h, h', h'', hi]
  have hnnn : w.extractLsb' 0 12 = w.extractLsb' 8 4 ++ w.extractLsb' 0 8 := by
    apply BitVec.eq_of_getLsbD_eq
    intro i hi
    simp only [BitVec.getLsbD_append, BitVec.getLsbD_extractLsb']
    by_cases h : i < 8
    · simp [h, hi]
    · have h' : i - 8 < 4 := by omega
      have h'' : 8 + (i - 8) = i := by omega
      simp [h, h', h'', hi]
  have hcode : w = w.extractLsb' 12 4 ++ w.extractLsb' 0 12 := by
    apply BitVec.eq_of_getLsbD_eq
    intro i hi
    simp only [BitVec.getLsbD_append, BitVec.getLsbD_extractLsb']
    by_cases h : i < 12
    · simp [h]
    · have h' : i - 12 < 4 := by omega
      have h'' : 12 + (i - 12) = i := by omega
      simp [h, h', h'']
  simp only [Fields.wellFormed, Fields.nnAgrees, Fields.nnnAgrees, Fields.codeAgrees, fieldsOf, ← hnn, ← hnnn, ← hcode, beq_self_eq_true,
    Bool.and_self]

@[simp] theorem regOf_regField (r : Reg) : regOf (regField r) = r := rfl

@[simp] theorem regField_regOf (b : BitVec 4) : regField (regOf b) = b := rfl

/-- The top nibble and the low 12 bits of a word built from them. -/
theorem fieldsOf_append (op : BitVec 4) (nnn : BitVec 12) :
    fieldsOf (op ++ nnn : Word) =
      ⟨op ++ nnn, op, nnn.extractLsb' 8 4, nnn.extractLsb' 4 4, nnn.extractLsb' 0 4, nnn.extractLsb' 0 8, nnn⟩ := by
  have low (start len : Nat) (h : start + len ≤ 12) : (op ++ nnn : Word).extractLsb' start len = nnn.extractLsb' start len := by
    apply BitVec.eq_of_getLsbD_eq
    intro i hi
    have hlt : start + i < 12 := by omega
    simp only [BitVec.getLsbD_extractLsb', BitVec.getLsbD_append, hlt, if_true]
  have high : (op ++ nnn : Word).extractLsb' 12 4 = op := by
    apply BitVec.eq_of_getLsbD_eq
    intro i hi
    have hge : ¬ 12 + i < 12 := by omega
    have hsub : 12 + i - 12 = i := by omega
    simp only [BitVec.getLsbD_extractLsb', BitVec.getLsbD_append, hge, hsub, hi, if_false, decide_true, Bool.true_and]
  have whole : nnn.extractLsb' 0 12 = nnn := BitVec.extractLsb'_eq_self
  simp only [fieldsOf, high, low 8 4 (by decide), low 4 4 (by decide), low 0 4 (by decide), low 0 8 (by decide), low 0 12 (by decide), whole]

/-- The fields of a word of format NNN (R93). -/
theorem fieldsOf_formatNNN (op : BitVec 4) (nnn : BitVec 12) :
    (fieldsOf (formatNNN op nnn)).op = op ∧ (fieldsOf (formatNNN op nnn)).nnn = nnn := by
  simp only [formatNNN]
  exact ⟨congrArg Fields.op (fieldsOf_append op nnn), congrArg Fields.nnn (fieldsOf_append op nnn)⟩

theorem extract_high (x : BitVec 4) (nn : BitVec 8) : (x ++ nn : BitVec 12).extractLsb' 8 4 = x := by
  apply BitVec.eq_of_getLsbD_eq
  intro i hi
  have hge : ¬ 8 + i < 8 := by omega
  have hsub : 8 + i - 8 = i := by omega
  simp only [BitVec.getLsbD_extractLsb', BitVec.getLsbD_append, hge, hsub, hi, if_false, decide_true, Bool.true_and]

/-- A slice below bit 8 is a slice of the low byte. -/
theorem extract_below (x : BitVec 4) (nn : BitVec 8) (start len : Nat) (h : start + len ≤ 8) :
    (x ++ nn : BitVec 12).extractLsb' start len = nn.extractLsb' start len := by
  apply BitVec.eq_of_getLsbD_eq
  intro i hi
  have hlt : start + i < 8 := by omega
  simp only [BitVec.getLsbD_extractLsb', BitVec.getLsbD_append, hlt, if_true]

theorem extract_low (x : BitVec 4) (nn : BitVec 8) : (x ++ nn : BitVec 12).extractLsb' 0 8 = nn :=
  (extract_below x nn 0 8 (by decide)).trans BitVec.extractLsb'_eq_self

theorem extract_mid (x : BitVec 4) (nn : BitVec 8) : (x ++ nn : BitVec 12).extractLsb' 4 4 = nn.extractLsb' 4 4 :=
  extract_below x nn 4 4 (by decide)

theorem extract_last (x : BitVec 4) (nn : BitVec 8) : (x ++ nn : BitVec 12).extractLsb' 0 4 = nn.extractLsb' 0 4 :=
  extract_below x nn 0 4 (by decide)

theorem extract_nibble_high (y n : BitVec 4) : (y ++ n : BitVec 8).extractLsb' 4 4 = y := by
  apply BitVec.eq_of_getLsbD_eq
  intro i hi
  have hge : ¬ 4 + i < 4 := by omega
  have hsub : 4 + i - 4 = i := by omega
  simp only [BitVec.getLsbD_extractLsb', BitVec.getLsbD_append, hge, hsub, hi, if_false, decide_true, Bool.true_and]

theorem extract_nibble_low (y n : BitVec 4) : (y ++ n : BitVec 8).extractLsb' 0 4 = n := by
  apply BitVec.eq_of_getLsbD_eq
  intro i hi
  have hz : 0 + i = i := by omega
  simp only [BitVec.getLsbD_extractLsb', BitVec.getLsbD_append, hz, hi, if_true, decide_true, Bool.true_and]

/-- The fields of a word of formats XNN and X (R93). -/
theorem fieldsOf_formatXNN (op : BitVec 4) (x : Reg) (nn : Byte) :
    (fieldsOf (formatXNN op x nn)).op = op ∧ (fieldsOf (formatXNN op x nn)).x = regField x ∧ (fieldsOf (formatXNN op x nn)).nn = nn := by
  unfold formatXNN
  rw [fieldsOf_append]
  exact ⟨rfl, extract_high _ _, extract_low _ _⟩

/-- The fields of a word of formats XY and XYN (R93). -/
theorem fieldsOf_formatXYN (op : BitVec 4) (x y : Reg) (n : BitVec 4) :
    (fieldsOf (formatXYN op x y n)).op = op ∧ (fieldsOf (formatXYN op x y n)).x = regField x ∧
      (fieldsOf (formatXYN op x y n)).y = regField y ∧ (fieldsOf (formatXYN op x y n)).n = n := by
  unfold formatXYN
  rw [fieldsOf_append]
  exact ⟨rfl, extract_high _ _, (extract_mid _ _).trans (extract_nibble_high _ _), (extract_last _ _).trans (extract_nibble_low _ _)⟩

/-! ### Words as numbers -/

theorem toNat_append (v w : Nat) (a : BitVec v) (b : BitVec w) : (a ++ b).toNat = a.toNat * 2 ^ w + b.toNat := by
  rw [BitVec.toNat_append, ← Nat.shiftLeft_add_eq_or_of_lt b.isLt, Nat.shiftLeft_eq]

theorem toNat_formatNNN (op : BitVec 4) (nnn : BitVec 12) : (formatNNN op nnn).toNat = op.toNat * 0x1000 + nnn.toNat :=
  toNat_append 4 12 op nnn

theorem toNat_formatXNN (op : BitVec 4) (x : Reg) (nn : Byte) :
    (formatXNN op x nn).toNat = op.toNat * 0x1000 + x.val * 0x100 + nn.toNat :=
  calc (formatXNN op x nn).toNat = op.toNat * 2 ^ 12 + (regField x ++ nn : BitVec (4 + 8)).toNat := toNat_append 4 12 op _
    _ = op.toNat * 2 ^ 12 + (x.val * 2 ^ 8 + nn.toNat) := by rw [toNat_append 4 8]; rfl
    _ = op.toNat * 0x1000 + x.val * 0x100 + nn.toNat := (Nat.add_assoc _ _ _).symm

theorem toNat_formatXYN (op : BitVec 4) (x y : Reg) (n : BitVec 4) :
    (formatXYN op x y n).toNat = op.toNat * 0x1000 + x.val * 0x100 + y.val * 0x10 + n.toNat :=
  calc (formatXYN op x y n).toNat
      = op.toNat * 2 ^ 12 + (regField x ++ (regField y ++ n : BitVec (4 + 4)) : BitVec (4 + (4 + 4))).toNat := toNat_append 4 12 op _
    _ = op.toNat * 2 ^ 12 + (x.val * 2 ^ (4 + 4) + (y.val * 2 ^ 4 + n.toNat)) := by rw [toNat_append 4 (4 + 4), toNat_append 4 4]; rfl
    _ = op.toNat * 0x1000 + x.val * 0x100 + y.val * 0x10 + n.toNat := by omega

end Sys2Proof
end

