-- ==== Sys2Proof/Laws/Memory.lean ====
section
/-! SUPPORT. The laws of memory: a read after a write, the frame of a write, and that every memory operation keeps the canonical form. -/

namespace Sys2Proof.Machine

theorem Memory.wfFrom_cons {lo k : Nat} {b : Byte} {m : Memory} :
    Memory.wfFrom lo ((k, b) :: m) = true ↔ lo ≤ k ∧ k < memSize ∧ b ≠ unlisted k ∧ Memory.wfFrom (k + 1) m = true := by
  simp [Memory.wfFrom, and_assoc]

/-- A lower bound may be lowered. -/
theorem Memory.wfFrom_mono {lo lo' : Nat} {m : Memory} (h : Memory.wfFrom lo m = true) (hle : lo' ≤ lo) : Memory.wfFrom lo' m = true := by
  cases m with
  | nil => rfl
  | cons c m =>
    rw [Memory.wfFrom_cons] at h ⊢
    exact ⟨by omega, h.2⟩

/-- Below the first listed address, an address reads its reset contents. -/
theorem Memory.read_below {m : Memory} : ∀ {lo a : Nat}, Memory.wfFrom lo m = true → a < lo → m.read a = unlisted a := by
  induction m with
  | nil => intros; rfl
  | cons c m ih =>
    intro lo a h hlt
    rw [Memory.wfFrom_cons] at h
    have hne : a ≠ c.1 := by omega
    simp only [Memory.read, if_neg hne]
    exact ih h.2.2.2 (by omega)

/-- Reading a list that begins with the cells for one address. -/
theorem Memory.read_cellsFor_append (m : Memory) (a : Nat) (b : Byte) (a' : Nat) (h : m.read a = unlisted a) :
    Memory.read (cellsFor a b ++ m) a' = if a' = a then b else m.read a' := by
  unfold cellsFor
  split <;> rename_i hb
  · by_cases ha : a' = a
    · subst ha; simp [h, hb]
    · simp [ha]
  · simp [Memory.read]

/-- The frame of a write: every other address reads as before, in any memory. -/
theorem Memory.read_write_of_ne (m : Memory) {a a' : Nat} (b : Byte) (h : a' ≠ a) : (m.write a b).read a' = m.read a' := by
  have cells : ∀ m' : Memory, Memory.read (cellsFor a b ++ m') a' = Memory.read m' a' := by
    intro m'
    unfold cellsFor
    split <;> simp [Memory.read, h]
  induction m with
  | nil => simpa [Memory.write] using cells []
  | cons c m ih =>
    simp only [Memory.write]
    split
    · exact cells _
    · split
      · rename_i _ hk
        have : a' ≠ c.1 := hk ▸ h
        simp [cells, Memory.read, this]
      · simp [Memory.read, ih]

theorem Memory.read_write_self_from {m : Memory} : ∀ {lo : Nat}, Memory.wfFrom lo m = true → ∀ (a : Nat) (b : Byte), (m.write a b).read a = b := by
  induction m with
  | nil =>
    intro lo _ a b
    have := Memory.read_cellsFor_append [] a b a rfl
    simpa [Memory.write] using this
  | cons c m ih =>
    intro lo h a b
    have hc := Memory.wfFrom_cons.mp h
    simp only [Memory.write]
    split
    · rename_i hlt
      have hread : Memory.read (c :: m) a = unlisted a :=
        Memory.read_below (lo := c.1) (Memory.wfFrom_cons.mpr ⟨Nat.le_refl _, hc.2⟩) hlt
      have := Memory.read_cellsFor_append (c :: m) a b a hread
      simpa using this
    · split
      · rename_i _ hk
        have hread : Memory.read m a = unlisted a := Memory.read_below hc.2.2.2 (by omega)
        have := Memory.read_cellsFor_append m a b a hread
        simpa using this
      · rename_i _ hk
        simp only [Memory.read, if_neg hk]
        exact ih hc.2.2.2 a b

/-- A read of the address just written gives the byte written. -/
theorem Memory.read_write_self {m : Memory} (h : m.wf = true) (a : Nat) (b : Byte) : (m.write a b).read a = b :=
  Memory.read_write_self_from h a b

theorem Memory.read_write {m : Memory} (h : m.wf = true) (a : Nat) (b : Byte) (a' : Nat) :
    (m.write a b).read a' = if a' = a then b else m.read a' := by
  split
  · rename_i ha; subst ha; exact Memory.read_write_self h _ b
  · rename_i ha; exact Memory.read_write_of_ne m b ha

/-- Cells put in front keep the canonical form. -/
theorem Memory.wfFrom_cellsFor_append {m : Memory} {lo a : Nat} (b : Byte) (hlo : lo ≤ a) (ha : a < memSize) (h : Memory.wfFrom (a + 1) m = true) :
    Memory.wfFrom lo (cellsFor a b ++ m) = true := by
  unfold cellsFor
  split
  · exact Memory.wfFrom_mono h (by omega)
  · rename_i hb
    exact Memory.wfFrom_cons.mpr ⟨hlo, ha, hb, h⟩

theorem Memory.wfFrom_write {m : Memory} : ∀ {lo : Nat}, Memory.wfFrom lo m = true → ∀ {a : Nat} (b : Byte), lo ≤ a → a < memSize →
    Memory.wfFrom lo (m.write a b) = true := by
  induction m with
  | nil =>
    intro lo _ a b hlo ha
    have := Memory.wfFrom_cellsFor_append (m := []) b hlo ha rfl
    simpa [Memory.write] using this
  | cons c m ih =>
    intro lo h a b hlo ha
    have hc := Memory.wfFrom_cons.mp h
    simp only [Memory.write]
    split
    · rename_i hlt
      exact Memory.wfFrom_cellsFor_append b hlo ha (Memory.wfFrom_cons.mpr ⟨hlt, hc.2⟩)
    · split
      · rename_i _ hk
        exact Memory.wfFrom_cellsFor_append b hlo ha (hk ▸ hc.2.2.2)
      · rename_i hnlt hk
        exact Memory.wfFrom_cons.mpr ⟨hc.1, hc.2.1, hc.2.2.1, ih hc.2.2.2 b (by omega) ha⟩

/-- A write inside the memory keeps the canonical form. -/
theorem Memory.wf_write {m : Memory} (h : m.wf = true) {a : Nat} (b : Byte) (ha : a < memSize) : (m.write a b).wf = true :=
  Memory.wfFrom_write h b (Nat.zero_le a) ha

/-- Writing consecutive bytes inside the memory keeps the canonical form. -/
theorem Memory.wf_writeBytes (bs : List Byte) : ∀ {m : Memory} {a : Nat}, m.wf = true → a + bs.length ≤ memSize → (m.writeBytes a bs).wf = true := by
  induction bs with
  | nil => intro m a h _; exact h
  | cons b bs ih =>
    intro m a h hle
    simp only [List.length_cons] at hle
    exact ih (Memory.wf_write h b (by omega)) (by omega)

/-- The frame of a block write: every address outside it reads as before, in any memory. -/
theorem Memory.read_writeBytes_of_outside (bs : List Byte) : ∀ (m : Memory) {a a' : Nat}, (a' < a ∨ a + bs.length ≤ a') →
    (m.writeBytes a bs).read a' = m.read a' := by
  induction bs with
  | nil => intros; rfl
  | cons b bs ih =>
    intro m a a' h
    simp only [List.length_cons] at h
    have step := ih (m.write a b) (a := a + 1) (a' := a') (by omega)
    rw [Memory.writeBytes, step]
    exact Memory.read_write_of_ne m b (by omega)

/-- Inside a block write, the k-th address reads the k-th byte. -/
theorem Memory.read_writeBytes_inside (bs : List Byte) : ∀ {m : Memory} {a : Nat}, m.wf = true → a + bs.length ≤ memSize →
    ∀ (k : Nat) (hk : k < bs.length), (m.writeBytes a bs).read (a + k) = bs[k] := by
  induction bs with
  | nil => intro m a _ _ k hk; exact absurd hk (Nat.not_lt_zero k)
  | cons b bs ih =>
    intro m a h hle k hk
    simp only [List.length_cons] at hle hk
    cases k with
    | zero =>
      rw [Memory.writeBytes, Nat.add_zero, Memory.read_writeBytes_of_outside bs _ (by omega)]
      exact Memory.read_write_self h a b
    | succ k =>
      have := ih (Memory.wf_write h b (by omega : a < memSize)) (by omega : a + 1 + bs.length ≤ memSize) k (by omega)
      rw [Memory.writeBytes, show a + (k + 1) = a + 1 + k by omega, this]
      rfl

/-- Reset memory has the canonical form. -/
theorem Memory.wf_reset : State.reset.mem.wf = true := rfl

/-- Reset memory reads as the reset contents everywhere. -/
@[simp] theorem Memory.read_reset (a : Nat) : State.reset.mem.read a = unlisted a := rfl

theorem Memory.ext_from {m : Memory} : ∀ {m' : Memory} {lo : Nat}, Memory.wfFrom lo m = true → Memory.wfFrom lo m' = true →
    (∀ a, m.read a = m'.read a) → m = m' := by
  induction m with
  | nil =>
    intro m' lo _ h' heq
    cases m' with
    | nil => rfl
    | cons c m' =>
      have hc := Memory.wfFrom_cons.mp h'
      have := heq c.1
      simp [Memory.read] at this
      exact absurd this.symm hc.2.2.1
  | cons c m ih =>
    intro m' lo h h' heq
    have hc := Memory.wfFrom_cons.mp h
    cases m' with
    | nil =>
      have := heq c.1
      simp [Memory.read] at this
      exact absurd this hc.2.2.1
    | cons c' m' =>
      have hc' := Memory.wfFrom_cons.mp h'
      have hkey : c.1 = c'.1 := by
        rcases Nat.lt_trichotomy c.1 c'.1 with hlt | he | hlt
        · have h1 := heq c.1
          rw [Memory.read_below (m := c' :: m') (lo := c'.1) (Memory.wfFrom_cons.mpr ⟨Nat.le_refl _, hc'.2⟩) hlt] at h1
          simp [Memory.read] at h1
          exact absurd h1 hc.2.2.1
        · exact he
        · have h1 := heq c'.1
          rw [Memory.read_below (m := c :: m) (lo := c.1) (Memory.wfFrom_cons.mpr ⟨Nat.le_refl _, hc.2⟩) hlt] at h1
          simp [Memory.read] at h1
          exact absurd h1.symm hc'.2.2.1
      have hval : c.2 = c'.2 := by
        have h1 := heq c.1
        simpa [Memory.read, hkey] using h1
      have htail : m = m' := by
        refine ih hc.2.2.2 (hkey ▸ hc'.2.2.2) fun a => ?_
        rcases Nat.lt_or_ge c.1 a with hlt | hge
        · have h1 := heq a
          have n1 : a ≠ c.1 := by omega
          have n2 : a ≠ c'.1 := by omega
          simpa [Memory.read, n1, n2] using h1
        · rw [Memory.read_below hc.2.2.2 (by omega), Memory.read_below hc'.2.2.2 (by omega)]
      rw [htail, Prod.ext hkey hval]

/-- In canonical form, memories that read alike are equal data. -/
theorem Memory.ext_of_wf {m m' : Memory} (h : m.wf = true) (h' : m'.wf = true) (heq : ∀ a, m.read a = m'.read a) : m = m' :=
  Memory.ext_from h h' heq

end Sys2Proof.Machine
end

