-- ==== Sys2Proof/Laws/State.lean ====
section
/-! SUPPORT. What each update of Machine/Ops.lean does to each field of the state: one lemma per field per update, so that no later proof unfolds a record
update; and what each update does to the read of a register. -/

namespace Sys2Proof.Machine

variable (s : State)

/-! ### setReg -/

@[simp] theorem State.setReg_v (x : Reg) (b : Byte) : (s.setReg x b).v = s.v.set x b := rfl
@[simp] theorem State.setReg_index (x : Reg) (b : Byte) : (s.setReg x b).index = s.index := rfl
@[simp] theorem State.setReg_pc (x : Reg) (b : Byte) : (s.setReg x b).pc = s.pc := rfl
@[simp] theorem State.setReg_stack (x : Reg) (b : Byte) : (s.setReg x b).stack = s.stack := rfl
@[simp] theorem State.setReg_sp (x : Reg) (b : Byte) : (s.setReg x b).sp = s.sp := rfl
@[simp] theorem State.setReg_mem (x : Reg) (b : Byte) : (s.setReg x b).mem = s.mem := rfl
@[simp] theorem State.setReg_fb (x : Reg) (b : Byte) : (s.setReg x b).fb = s.fb := rfl
@[simp] theorem State.setReg_key (x : Reg) (b : Byte) : (s.setReg x b).key = s.key := rfl
@[simp] theorem State.setReg_dt (x : Reg) (b : Byte) : (s.setReg x b).dt = s.dt := rfl
@[simp] theorem State.setReg_st (x : Reg) (b : Byte) : (s.setReg x b).st = s.st := rfl
@[simp] theorem State.setReg_drawn (x : Reg) (b : Byte) : (s.setReg x b).drawn = s.drawn := rfl
@[simp] theorem State.setReg_ack (x : Reg) (b : Byte) : (s.setReg x b).ack = s.ack := rfl
@[simp] theorem State.setReg_halted (x : Reg) (b : Byte) : (s.setReg x b).halted = s.halted := rfl
@[simp] theorem State.setReg_fault (x : Reg) (b : Byte) : (s.setReg x b).fault = s.fault := rfl
@[simp] theorem State.setReg_status (x : Reg) (b : Byte) : (s.setReg x b).status = s.status := rfl
@[simp] theorem State.setReg_legacyShift (x : Reg) (b : Byte) : (s.setReg x b).legacyShift = s.legacyShift := rfl
@[simp] theorem State.setReg_draws (x : Reg) (b : Byte) : (s.setReg x b).draws = s.draws := rfl

/-! ### setRegs -/

@[simp] theorem State.setRegs_v (v : Vector Byte 16) : (s.setRegs v).v = v := rfl
@[simp] theorem State.setRegs_index (v : Vector Byte 16) : (s.setRegs v).index = s.index := rfl
@[simp] theorem State.setRegs_pc (v : Vector Byte 16) : (s.setRegs v).pc = s.pc := rfl
@[simp] theorem State.setRegs_stack (v : Vector Byte 16) : (s.setRegs v).stack = s.stack := rfl
@[simp] theorem State.setRegs_sp (v : Vector Byte 16) : (s.setRegs v).sp = s.sp := rfl
@[simp] theorem State.setRegs_mem (v : Vector Byte 16) : (s.setRegs v).mem = s.mem := rfl
@[simp] theorem State.setRegs_fb (v : Vector Byte 16) : (s.setRegs v).fb = s.fb := rfl
@[simp] theorem State.setRegs_key (v : Vector Byte 16) : (s.setRegs v).key = s.key := rfl
@[simp] theorem State.setRegs_dt (v : Vector Byte 16) : (s.setRegs v).dt = s.dt := rfl
@[simp] theorem State.setRegs_st (v : Vector Byte 16) : (s.setRegs v).st = s.st := rfl
@[simp] theorem State.setRegs_drawn (v : Vector Byte 16) : (s.setRegs v).drawn = s.drawn := rfl
@[simp] theorem State.setRegs_ack (v : Vector Byte 16) : (s.setRegs v).ack = s.ack := rfl
@[simp] theorem State.setRegs_halted (v : Vector Byte 16) : (s.setRegs v).halted = s.halted := rfl
@[simp] theorem State.setRegs_fault (v : Vector Byte 16) : (s.setRegs v).fault = s.fault := rfl
@[simp] theorem State.setRegs_status (v : Vector Byte 16) : (s.setRegs v).status = s.status := rfl
@[simp] theorem State.setRegs_legacyShift (v : Vector Byte 16) : (s.setRegs v).legacyShift = s.legacyShift := rfl
@[simp] theorem State.setRegs_draws (v : Vector Byte 16) : (s.setRegs v).draws = s.draws := rfl

/-! ### setIndex -/

@[simp] theorem State.setIndex_v (a : Addr) : (s.setIndex a).v = s.v := rfl
@[simp] theorem State.setIndex_index (a : Addr) : (s.setIndex a).index = a := rfl
@[simp] theorem State.setIndex_pc (a : Addr) : (s.setIndex a).pc = s.pc := rfl
@[simp] theorem State.setIndex_stack (a : Addr) : (s.setIndex a).stack = s.stack := rfl
@[simp] theorem State.setIndex_sp (a : Addr) : (s.setIndex a).sp = s.sp := rfl
@[simp] theorem State.setIndex_mem (a : Addr) : (s.setIndex a).mem = s.mem := rfl
@[simp] theorem State.setIndex_fb (a : Addr) : (s.setIndex a).fb = s.fb := rfl
@[simp] theorem State.setIndex_key (a : Addr) : (s.setIndex a).key = s.key := rfl
@[simp] theorem State.setIndex_dt (a : Addr) : (s.setIndex a).dt = s.dt := rfl
@[simp] theorem State.setIndex_st (a : Addr) : (s.setIndex a).st = s.st := rfl
@[simp] theorem State.setIndex_drawn (a : Addr) : (s.setIndex a).drawn = s.drawn := rfl
@[simp] theorem State.setIndex_ack (a : Addr) : (s.setIndex a).ack = s.ack := rfl
@[simp] theorem State.setIndex_halted (a : Addr) : (s.setIndex a).halted = s.halted := rfl
@[simp] theorem State.setIndex_fault (a : Addr) : (s.setIndex a).fault = s.fault := rfl
@[simp] theorem State.setIndex_status (a : Addr) : (s.setIndex a).status = s.status := rfl
@[simp] theorem State.setIndex_legacyShift (a : Addr) : (s.setIndex a).legacyShift = s.legacyShift := rfl
@[simp] theorem State.setIndex_draws (a : Addr) : (s.setIndex a).draws = s.draws := rfl

/-! ### setPc -/

@[simp] theorem State.setPc_v (a : Addr) : (s.setPc a).v = s.v := rfl
@[simp] theorem State.setPc_index (a : Addr) : (s.setPc a).index = s.index := rfl
@[simp] theorem State.setPc_pc (a : Addr) : (s.setPc a).pc = a := rfl
@[simp] theorem State.setPc_stack (a : Addr) : (s.setPc a).stack = s.stack := rfl
@[simp] theorem State.setPc_sp (a : Addr) : (s.setPc a).sp = s.sp := rfl
@[simp] theorem State.setPc_mem (a : Addr) : (s.setPc a).mem = s.mem := rfl
@[simp] theorem State.setPc_fb (a : Addr) : (s.setPc a).fb = s.fb := rfl
@[simp] theorem State.setPc_key (a : Addr) : (s.setPc a).key = s.key := rfl
@[simp] theorem State.setPc_dt (a : Addr) : (s.setPc a).dt = s.dt := rfl
@[simp] theorem State.setPc_st (a : Addr) : (s.setPc a).st = s.st := rfl
@[simp] theorem State.setPc_drawn (a : Addr) : (s.setPc a).drawn = s.drawn := rfl
@[simp] theorem State.setPc_ack (a : Addr) : (s.setPc a).ack = s.ack := rfl
@[simp] theorem State.setPc_halted (a : Addr) : (s.setPc a).halted = s.halted := rfl
@[simp] theorem State.setPc_fault (a : Addr) : (s.setPc a).fault = s.fault := rfl
@[simp] theorem State.setPc_status (a : Addr) : (s.setPc a).status = s.status := rfl
@[simp] theorem State.setPc_legacyShift (a : Addr) : (s.setPc a).legacyShift = s.legacyShift := rfl
@[simp] theorem State.setPc_draws (a : Addr) : (s.setPc a).draws = s.draws := rfl

/-! ### setStack -/

@[simp] theorem State.setStack_v (k : Vector Addr 16) (n : Fin 17) : (s.setStack k n).v = s.v := rfl
@[simp] theorem State.setStack_index (k : Vector Addr 16) (n : Fin 17) : (s.setStack k n).index = s.index := rfl
@[simp] theorem State.setStack_pc (k : Vector Addr 16) (n : Fin 17) : (s.setStack k n).pc = s.pc := rfl
@[simp] theorem State.setStack_stack (k : Vector Addr 16) (n : Fin 17) : (s.setStack k n).stack = k := rfl
@[simp] theorem State.setStack_sp (k : Vector Addr 16) (n : Fin 17) : (s.setStack k n).sp = n := rfl
@[simp] theorem State.setStack_mem (k : Vector Addr 16) (n : Fin 17) : (s.setStack k n).mem = s.mem := rfl
@[simp] theorem State.setStack_fb (k : Vector Addr 16) (n : Fin 17) : (s.setStack k n).fb = s.fb := rfl
@[simp] theorem State.setStack_key (k : Vector Addr 16) (n : Fin 17) : (s.setStack k n).key = s.key := rfl
@[simp] theorem State.setStack_dt (k : Vector Addr 16) (n : Fin 17) : (s.setStack k n).dt = s.dt := rfl
@[simp] theorem State.setStack_st (k : Vector Addr 16) (n : Fin 17) : (s.setStack k n).st = s.st := rfl
@[simp] theorem State.setStack_drawn (k : Vector Addr 16) (n : Fin 17) : (s.setStack k n).drawn = s.drawn := rfl
@[simp] theorem State.setStack_ack (k : Vector Addr 16) (n : Fin 17) : (s.setStack k n).ack = s.ack := rfl
@[simp] theorem State.setStack_halted (k : Vector Addr 16) (n : Fin 17) : (s.setStack k n).halted = s.halted := rfl
@[simp] theorem State.setStack_fault (k : Vector Addr 16) (n : Fin 17) : (s.setStack k n).fault = s.fault := rfl
@[simp] theorem State.setStack_status (k : Vector Addr 16) (n : Fin 17) : (s.setStack k n).status = s.status := rfl
@[simp] theorem State.setStack_legacyShift (k : Vector Addr 16) (n : Fin 17) : (s.setStack k n).legacyShift = s.legacyShift := rfl
@[simp] theorem State.setStack_draws (k : Vector Addr 16) (n : Fin 17) : (s.setStack k n).draws = s.draws := rfl

/-! ### setMem -/

@[simp] theorem State.setMem_v (m : Memory) : (s.setMem m).v = s.v := rfl
@[simp] theorem State.setMem_index (m : Memory) : (s.setMem m).index = s.index := rfl
@[simp] theorem State.setMem_pc (m : Memory) : (s.setMem m).pc = s.pc := rfl
@[simp] theorem State.setMem_stack (m : Memory) : (s.setMem m).stack = s.stack := rfl
@[simp] theorem State.setMem_sp (m : Memory) : (s.setMem m).sp = s.sp := rfl
@[simp] theorem State.setMem_mem (m : Memory) : (s.setMem m).mem = m := rfl
@[simp] theorem State.setMem_fb (m : Memory) : (s.setMem m).fb = s.fb := rfl
@[simp] theorem State.setMem_key (m : Memory) : (s.setMem m).key = s.key := rfl
@[simp] theorem State.setMem_dt (m : Memory) : (s.setMem m).dt = s.dt := rfl
@[simp] theorem State.setMem_st (m : Memory) : (s.setMem m).st = s.st := rfl
@[simp] theorem State.setMem_drawn (m : Memory) : (s.setMem m).drawn = s.drawn := rfl
@[simp] theorem State.setMem_ack (m : Memory) : (s.setMem m).ack = s.ack := rfl
@[simp] theorem State.setMem_halted (m : Memory) : (s.setMem m).halted = s.halted := rfl
@[simp] theorem State.setMem_fault (m : Memory) : (s.setMem m).fault = s.fault := rfl
@[simp] theorem State.setMem_status (m : Memory) : (s.setMem m).status = s.status := rfl
@[simp] theorem State.setMem_legacyShift (m : Memory) : (s.setMem m).legacyShift = s.legacyShift := rfl
@[simp] theorem State.setMem_draws (m : Memory) : (s.setMem m).draws = s.draws := rfl

/-! ### setScreen -/

@[simp] theorem State.setScreen_v (f : Screen) : (s.setScreen f).v = s.v := rfl
@[simp] theorem State.setScreen_index (f : Screen) : (s.setScreen f).index = s.index := rfl
@[simp] theorem State.setScreen_pc (f : Screen) : (s.setScreen f).pc = s.pc := rfl
@[simp] theorem State.setScreen_stack (f : Screen) : (s.setScreen f).stack = s.stack := rfl
@[simp] theorem State.setScreen_sp (f : Screen) : (s.setScreen f).sp = s.sp := rfl
@[simp] theorem State.setScreen_mem (f : Screen) : (s.setScreen f).mem = s.mem := rfl
@[simp] theorem State.setScreen_fb (f : Screen) : (s.setScreen f).fb = f := rfl
@[simp] theorem State.setScreen_key (f : Screen) : (s.setScreen f).key = s.key := rfl
@[simp] theorem State.setScreen_dt (f : Screen) : (s.setScreen f).dt = s.dt := rfl
@[simp] theorem State.setScreen_st (f : Screen) : (s.setScreen f).st = s.st := rfl
@[simp] theorem State.setScreen_drawn (f : Screen) : (s.setScreen f).drawn = true := rfl
@[simp] theorem State.setScreen_ack (f : Screen) : (s.setScreen f).ack = s.ack := rfl
@[simp] theorem State.setScreen_halted (f : Screen) : (s.setScreen f).halted = s.halted := rfl
@[simp] theorem State.setScreen_fault (f : Screen) : (s.setScreen f).fault = s.fault := rfl
@[simp] theorem State.setScreen_status (f : Screen) : (s.setScreen f).status = s.status := rfl
@[simp] theorem State.setScreen_legacyShift (f : Screen) : (s.setScreen f).legacyShift = s.legacyShift := rfl
@[simp] theorem State.setScreen_draws (f : Screen) : (s.setScreen f).draws = s.draws := rfl

/-! ### setKeys -/

@[simp] theorem State.setKeys_v (k : BitVec 16) : (s.setKeys k).v = s.v := rfl
@[simp] theorem State.setKeys_index (k : BitVec 16) : (s.setKeys k).index = s.index := rfl
@[simp] theorem State.setKeys_pc (k : BitVec 16) : (s.setKeys k).pc = s.pc := rfl
@[simp] theorem State.setKeys_stack (k : BitVec 16) : (s.setKeys k).stack = s.stack := rfl
@[simp] theorem State.setKeys_sp (k : BitVec 16) : (s.setKeys k).sp = s.sp := rfl
@[simp] theorem State.setKeys_mem (k : BitVec 16) : (s.setKeys k).mem = s.mem := rfl
@[simp] theorem State.setKeys_fb (k : BitVec 16) : (s.setKeys k).fb = s.fb := rfl
@[simp] theorem State.setKeys_key (k : BitVec 16) : (s.setKeys k).key = k := rfl
@[simp] theorem State.setKeys_dt (k : BitVec 16) : (s.setKeys k).dt = s.dt := rfl
@[simp] theorem State.setKeys_st (k : BitVec 16) : (s.setKeys k).st = s.st := rfl
@[simp] theorem State.setKeys_drawn (k : BitVec 16) : (s.setKeys k).drawn = s.drawn := rfl
@[simp] theorem State.setKeys_ack (k : BitVec 16) : (s.setKeys k).ack = s.ack := rfl
@[simp] theorem State.setKeys_halted (k : BitVec 16) : (s.setKeys k).halted = s.halted := rfl
@[simp] theorem State.setKeys_fault (k : BitVec 16) : (s.setKeys k).fault = s.fault := rfl
@[simp] theorem State.setKeys_status (k : BitVec 16) : (s.setKeys k).status = s.status := rfl
@[simp] theorem State.setKeys_legacyShift (k : BitVec 16) : (s.setKeys k).legacyShift = s.legacyShift := rfl
@[simp] theorem State.setKeys_draws (k : BitVec 16) : (s.setKeys k).draws = s.draws := rfl

/-! ### setDelayTimer -/

@[simp] theorem State.setDelayTimer_v (b : Byte) : (s.setDelayTimer b).v = s.v := rfl
@[simp] theorem State.setDelayTimer_index (b : Byte) : (s.setDelayTimer b).index = s.index := rfl
@[simp] theorem State.setDelayTimer_pc (b : Byte) : (s.setDelayTimer b).pc = s.pc := rfl
@[simp] theorem State.setDelayTimer_stack (b : Byte) : (s.setDelayTimer b).stack = s.stack := rfl
@[simp] theorem State.setDelayTimer_sp (b : Byte) : (s.setDelayTimer b).sp = s.sp := rfl
@[simp] theorem State.setDelayTimer_mem (b : Byte) : (s.setDelayTimer b).mem = s.mem := rfl
@[simp] theorem State.setDelayTimer_fb (b : Byte) : (s.setDelayTimer b).fb = s.fb := rfl
@[simp] theorem State.setDelayTimer_key (b : Byte) : (s.setDelayTimer b).key = s.key := rfl
@[simp] theorem State.setDelayTimer_dt (b : Byte) : (s.setDelayTimer b).dt = b := rfl
@[simp] theorem State.setDelayTimer_st (b : Byte) : (s.setDelayTimer b).st = s.st := rfl
@[simp] theorem State.setDelayTimer_drawn (b : Byte) : (s.setDelayTimer b).drawn = s.drawn := rfl
@[simp] theorem State.setDelayTimer_ack (b : Byte) : (s.setDelayTimer b).ack = s.ack := rfl
@[simp] theorem State.setDelayTimer_halted (b : Byte) : (s.setDelayTimer b).halted = s.halted := rfl
@[simp] theorem State.setDelayTimer_fault (b : Byte) : (s.setDelayTimer b).fault = s.fault := rfl
@[simp] theorem State.setDelayTimer_status (b : Byte) : (s.setDelayTimer b).status = s.status := rfl
@[simp] theorem State.setDelayTimer_legacyShift (b : Byte) : (s.setDelayTimer b).legacyShift = s.legacyShift := rfl
@[simp] theorem State.setDelayTimer_draws (b : Byte) : (s.setDelayTimer b).draws = s.draws := rfl

/-! ### setSoundTimer -/

@[simp] theorem State.setSoundTimer_v (b : Byte) : (s.setSoundTimer b).v = s.v := rfl
@[simp] theorem State.setSoundTimer_index (b : Byte) : (s.setSoundTimer b).index = s.index := rfl
@[simp] theorem State.setSoundTimer_pc (b : Byte) : (s.setSoundTimer b).pc = s.pc := rfl
@[simp] theorem State.setSoundTimer_stack (b : Byte) : (s.setSoundTimer b).stack = s.stack := rfl
@[simp] theorem State.setSoundTimer_sp (b : Byte) : (s.setSoundTimer b).sp = s.sp := rfl
@[simp] theorem State.setSoundTimer_mem (b : Byte) : (s.setSoundTimer b).mem = s.mem := rfl
@[simp] theorem State.setSoundTimer_fb (b : Byte) : (s.setSoundTimer b).fb = s.fb := rfl
@[simp] theorem State.setSoundTimer_key (b : Byte) : (s.setSoundTimer b).key = s.key := rfl
@[simp] theorem State.setSoundTimer_dt (b : Byte) : (s.setSoundTimer b).dt = s.dt := rfl
@[simp] theorem State.setSoundTimer_st (b : Byte) : (s.setSoundTimer b).st = b := rfl
@[simp] theorem State.setSoundTimer_drawn (b : Byte) : (s.setSoundTimer b).drawn = s.drawn := rfl
@[simp] theorem State.setSoundTimer_ack (b : Byte) : (s.setSoundTimer b).ack = s.ack := rfl
@[simp] theorem State.setSoundTimer_halted (b : Byte) : (s.setSoundTimer b).halted = s.halted := rfl
@[simp] theorem State.setSoundTimer_fault (b : Byte) : (s.setSoundTimer b).fault = s.fault := rfl
@[simp] theorem State.setSoundTimer_status (b : Byte) : (s.setSoundTimer b).status = s.status := rfl
@[simp] theorem State.setSoundTimer_legacyShift (b : Byte) : (s.setSoundTimer b).legacyShift = s.legacyShift := rfl
@[simp] theorem State.setSoundTimer_draws (b : Byte) : (s.setSoundTimer b).draws = s.draws := rfl

/-! ### setHandshake -/

@[simp] theorem State.setHandshake_v (d a : Bool) : (s.setHandshake d a).v = s.v := rfl
@[simp] theorem State.setHandshake_index (d a : Bool) : (s.setHandshake d a).index = s.index := rfl
@[simp] theorem State.setHandshake_pc (d a : Bool) : (s.setHandshake d a).pc = s.pc := rfl
@[simp] theorem State.setHandshake_stack (d a : Bool) : (s.setHandshake d a).stack = s.stack := rfl
@[simp] theorem State.setHandshake_sp (d a : Bool) : (s.setHandshake d a).sp = s.sp := rfl
@[simp] theorem State.setHandshake_mem (d a : Bool) : (s.setHandshake d a).mem = s.mem := rfl
@[simp] theorem State.setHandshake_fb (d a : Bool) : (s.setHandshake d a).fb = s.fb := rfl
@[simp] theorem State.setHandshake_key (d a : Bool) : (s.setHandshake d a).key = s.key := rfl
@[simp] theorem State.setHandshake_dt (d a : Bool) : (s.setHandshake d a).dt = s.dt := rfl
@[simp] theorem State.setHandshake_st (d a : Bool) : (s.setHandshake d a).st = s.st := rfl
@[simp] theorem State.setHandshake_drawn (d a : Bool) : (s.setHandshake d a).drawn = d := rfl
@[simp] theorem State.setHandshake_ack (d a : Bool) : (s.setHandshake d a).ack = a := rfl
@[simp] theorem State.setHandshake_halted (d a : Bool) : (s.setHandshake d a).halted = s.halted := rfl
@[simp] theorem State.setHandshake_fault (d a : Bool) : (s.setHandshake d a).fault = s.fault := rfl
@[simp] theorem State.setHandshake_status (d a : Bool) : (s.setHandshake d a).status = s.status := rfl
@[simp] theorem State.setHandshake_legacyShift (d a : Bool) : (s.setHandshake d a).legacyShift = s.legacyShift := rfl
@[simp] theorem State.setHandshake_draws (d a : Bool) : (s.setHandshake d a).draws = s.draws := rfl

/-! ### setStatus -/

@[simp] theorem State.setStatus_v (r : StepStatus) : (s.setStatus r).v = s.v := rfl
@[simp] theorem State.setStatus_index (r : StepStatus) : (s.setStatus r).index = s.index := rfl
@[simp] theorem State.setStatus_pc (r : StepStatus) : (s.setStatus r).pc = s.pc := rfl
@[simp] theorem State.setStatus_stack (r : StepStatus) : (s.setStatus r).stack = s.stack := rfl
@[simp] theorem State.setStatus_sp (r : StepStatus) : (s.setStatus r).sp = s.sp := rfl
@[simp] theorem State.setStatus_mem (r : StepStatus) : (s.setStatus r).mem = s.mem := rfl
@[simp] theorem State.setStatus_fb (r : StepStatus) : (s.setStatus r).fb = s.fb := rfl
@[simp] theorem State.setStatus_key (r : StepStatus) : (s.setStatus r).key = s.key := rfl
@[simp] theorem State.setStatus_dt (r : StepStatus) : (s.setStatus r).dt = s.dt := rfl
@[simp] theorem State.setStatus_st (r : StepStatus) : (s.setStatus r).st = s.st := rfl
@[simp] theorem State.setStatus_drawn (r : StepStatus) : (s.setStatus r).drawn = s.drawn := rfl
@[simp] theorem State.setStatus_ack (r : StepStatus) : (s.setStatus r).ack = s.ack := rfl
@[simp] theorem State.setStatus_halted (r : StepStatus) : (s.setStatus r).halted = s.halted := rfl
@[simp] theorem State.setStatus_fault (r : StepStatus) : (s.setStatus r).fault = s.fault := rfl
@[simp] theorem State.setStatus_status (r : StepStatus) : (s.setStatus r).status = r := rfl
@[simp] theorem State.setStatus_legacyShift (r : StepStatus) : (s.setStatus r).legacyShift = s.legacyShift := rfl
@[simp] theorem State.setStatus_draws (r : StepStatus) : (s.setStatus r).draws = s.draws := rfl

/-! ### countDraw -/

@[simp] theorem State.countDraw_v : s.countDraw.v = s.v := rfl
@[simp] theorem State.countDraw_index : s.countDraw.index = s.index := rfl
@[simp] theorem State.countDraw_pc : s.countDraw.pc = s.pc := rfl
@[simp] theorem State.countDraw_stack : s.countDraw.stack = s.stack := rfl
@[simp] theorem State.countDraw_sp : s.countDraw.sp = s.sp := rfl
@[simp] theorem State.countDraw_mem : s.countDraw.mem = s.mem := rfl
@[simp] theorem State.countDraw_fb : s.countDraw.fb = s.fb := rfl
@[simp] theorem State.countDraw_key : s.countDraw.key = s.key := rfl
@[simp] theorem State.countDraw_dt : s.countDraw.dt = s.dt := rfl
@[simp] theorem State.countDraw_st : s.countDraw.st = s.st := rfl
@[simp] theorem State.countDraw_drawn : s.countDraw.drawn = s.drawn := rfl
@[simp] theorem State.countDraw_ack : s.countDraw.ack = s.ack := rfl
@[simp] theorem State.countDraw_halted : s.countDraw.halted = s.halted := rfl
@[simp] theorem State.countDraw_fault : s.countDraw.fault = s.fault := rfl
@[simp] theorem State.countDraw_status : s.countDraw.status = s.status := rfl
@[simp] theorem State.countDraw_legacyShift : s.countDraw.legacyShift = s.legacyShift := rfl
@[simp] theorem State.countDraw_draws : s.countDraw.draws = s.draws + 1 := rfl

/-! ### latchFault -/

@[simp] theorem State.latchFault_v (c : FaultCause) : (s.latchFault c).v = s.v := rfl
@[simp] theorem State.latchFault_index (c : FaultCause) : (s.latchFault c).index = s.index := rfl
@[simp] theorem State.latchFault_pc (c : FaultCause) : (s.latchFault c).pc = s.pc := rfl
@[simp] theorem State.latchFault_stack (c : FaultCause) : (s.latchFault c).stack = s.stack := rfl
@[simp] theorem State.latchFault_sp (c : FaultCause) : (s.latchFault c).sp = s.sp := rfl
@[simp] theorem State.latchFault_mem (c : FaultCause) : (s.latchFault c).mem = s.mem := rfl
@[simp] theorem State.latchFault_fb (c : FaultCause) : (s.latchFault c).fb = s.fb := rfl
@[simp] theorem State.latchFault_key (c : FaultCause) : (s.latchFault c).key = s.key := rfl
@[simp] theorem State.latchFault_dt (c : FaultCause) : (s.latchFault c).dt = s.dt := rfl
@[simp] theorem State.latchFault_st (c : FaultCause) : (s.latchFault c).st = s.st := rfl
@[simp] theorem State.latchFault_drawn (c : FaultCause) : (s.latchFault c).drawn = s.drawn := rfl
@[simp] theorem State.latchFault_ack (c : FaultCause) : (s.latchFault c).ack = s.ack := rfl
@[simp] theorem State.latchFault_halted (c : FaultCause) : (s.latchFault c).halted = true := rfl
@[simp] theorem State.latchFault_fault (c : FaultCause) : (s.latchFault c).fault = c := rfl
@[simp] theorem State.latchFault_status (c : FaultCause) : (s.latchFault c).status = .fault c := rfl
@[simp] theorem State.latchFault_legacyShift (c : FaultCause) : (s.latchFault c).legacyShift = s.legacyShift := rfl
@[simp] theorem State.latchFault_draws (c : FaultCause) : (s.latchFault c).draws = s.draws := rfl

/-! ### Registers -/

theorem State.reg_eq_getElem (x : Reg) : s.reg x = s.v[x] := rfl

@[simp] theorem State.reg_setReg (x : Reg) (b : Byte) (r : Reg) : (s.setReg x b).reg r = if r = x then b else s.reg r := by
  simp only [State.reg, State.setReg_v, Fin.getElem_fin, Vector.getElem_set, Fin.ext_iff, eq_comm]

@[simp] theorem State.reg_setRegs (v : Vector Byte 16) (r : Reg) : (s.setRegs v).reg r = v[r] := rfl

@[simp] theorem State.reg_setIndex (a : Addr) (x : Reg) : (s.setIndex a).reg x = s.reg x := rfl
@[simp] theorem State.reg_setPc (a : Addr) (x : Reg) : (s.setPc a).reg x = s.reg x := rfl
@[simp] theorem State.reg_setStack (k : Vector Addr 16) (n : Fin 17) (x : Reg) : (s.setStack k n).reg x = s.reg x := rfl
@[simp] theorem State.reg_setMem (m : Memory) (x : Reg) : (s.setMem m).reg x = s.reg x := rfl
@[simp] theorem State.reg_setScreen (f : Screen) (x : Reg) : (s.setScreen f).reg x = s.reg x := rfl
@[simp] theorem State.reg_setKeys (k : BitVec 16) (x : Reg) : (s.setKeys k).reg x = s.reg x := rfl
@[simp] theorem State.reg_setDelayTimer (b : Byte) (x : Reg) : (s.setDelayTimer b).reg x = s.reg x := rfl
@[simp] theorem State.reg_setSoundTimer (b : Byte) (x : Reg) : (s.setSoundTimer b).reg x = s.reg x := rfl
@[simp] theorem State.reg_setHandshake (d a : Bool) (x : Reg) : (s.setHandshake d a).reg x = s.reg x := rfl
@[simp] theorem State.reg_setStatus (r : StepStatus) (x : Reg) : (s.setStatus r).reg x = s.reg x := rfl
@[simp] theorem State.reg_countDraw (x : Reg) : s.countDraw.reg x = s.reg x := rfl
@[simp] theorem State.reg_latchFault (c : FaultCause) (x : Reg) : (s.latchFault c).reg x = s.reg x := rfl

/-- `VF` first, the destination second (R23): with x = 15 the result stays. -/
@[simp] theorem State.reg_setFlagAndReg (flag : Bool) (x : Reg) (b : Byte) (r : Reg) :
    (s.setFlagAndReg flag x b).reg r = if r = x then b else if r = flagReg then flagByte flag else s.reg r := by
  simp only [State.setFlagAndReg, State.reg_setReg]

@[simp] theorem State.setFlagAndReg_index (flag : Bool) (x : Reg) (b : Byte) : (s.setFlagAndReg flag x b).index = s.index := rfl
@[simp] theorem State.setFlagAndReg_pc (flag : Bool) (x : Reg) (b : Byte) : (s.setFlagAndReg flag x b).pc = s.pc := rfl
@[simp] theorem State.setFlagAndReg_stack (flag : Bool) (x : Reg) (b : Byte) : (s.setFlagAndReg flag x b).stack = s.stack := rfl
@[simp] theorem State.setFlagAndReg_sp (flag : Bool) (x : Reg) (b : Byte) : (s.setFlagAndReg flag x b).sp = s.sp := rfl
@[simp] theorem State.setFlagAndReg_mem (flag : Bool) (x : Reg) (b : Byte) : (s.setFlagAndReg flag x b).mem = s.mem := rfl
@[simp] theorem State.setFlagAndReg_fb (flag : Bool) (x : Reg) (b : Byte) : (s.setFlagAndReg flag x b).fb = s.fb := rfl
@[simp] theorem State.setFlagAndReg_key (flag : Bool) (x : Reg) (b : Byte) : (s.setFlagAndReg flag x b).key = s.key := rfl
@[simp] theorem State.setFlagAndReg_dt (flag : Bool) (x : Reg) (b : Byte) : (s.setFlagAndReg flag x b).dt = s.dt := rfl
@[simp] theorem State.setFlagAndReg_st (flag : Bool) (x : Reg) (b : Byte) : (s.setFlagAndReg flag x b).st = s.st := rfl
@[simp] theorem State.setFlagAndReg_drawn (flag : Bool) (x : Reg) (b : Byte) : (s.setFlagAndReg flag x b).drawn = s.drawn := rfl
@[simp] theorem State.setFlagAndReg_ack (flag : Bool) (x : Reg) (b : Byte) : (s.setFlagAndReg flag x b).ack = s.ack := rfl
@[simp] theorem State.setFlagAndReg_halted (flag : Bool) (x : Reg) (b : Byte) : (s.setFlagAndReg flag x b).halted = s.halted := rfl
@[simp] theorem State.setFlagAndReg_fault (flag : Bool) (x : Reg) (b : Byte) : (s.setFlagAndReg flag x b).fault = s.fault := rfl
@[simp] theorem State.setFlagAndReg_status (flag : Bool) (x : Reg) (b : Byte) : (s.setFlagAndReg flag x b).status = s.status := rfl
@[simp] theorem State.setFlagAndReg_legacyShift (flag : Bool) (x : Reg) (b : Byte) : (s.setFlagAndReg flag x b).legacyShift = s.legacyShift := rfl
@[simp] theorem State.setFlagAndReg_draws (flag : Bool) (x : Reg) (b : Byte) : (s.setFlagAndReg flag x b).draws = s.draws := rfl

end Sys2Proof.Machine
end

