-- ==== Sys2Proof/Laws/Ops.lean ====
section
/-! SUPPORT. One lemma for each shared operation, saying everything it can do: the range check, fetch, the stack, how a step ends, the key scan, the
screen byte XOR, the block operations. -/

namespace Sys2Proof.Machine

/-! ### The range check (R66, R68) -/

theorem checkRange_eq_none {n : Nat} : ∀ {a : Nat}, checkRange a n = none ↔ n = 0 ∨ a + n ≤ memSize := by
  induction n with
  | zero => intro a; simp [checkRange]
  | succ n ih =>
    intro a
    simp only [checkRange]
    split
    · rw [ih]; omega
    · simp; omega

/-- The first offending address is `MEM_SIZE` itself unless the start is already outside (R68). -/
theorem checkRange_eq_some {n : Nat} : ∀ {a bad : Nat}, checkRange a n = some bad ↔ n ≠ 0 ∧ memSize < a + n ∧ bad = max a memSize := by
  induction n with
  | zero => intro a bad; simp [checkRange]
  | succ n ih =>
    intro a bad
    simp only [checkRange]
    split
    · rw [ih]; omega
    · simp; omega

/-! ### Fetch (R121) -/

theorem fetch_eq_ok {s : State} {w : Word} :
    fetch s = .ok w ↔ s.pc.toNat + 2 ≤ memSize ∧ w = wordOfBytes (s.mem.read s.pc.toNat) (s.mem.read (s.pc.toNat + 1)) := by
  unfold fetch
  split <;> rename_i h
  · have := checkRange_eq_some.mp h
    simp; omega
  · have := checkRange_eq_none.mp h
    simp; constructor
    · rintro rfl; exact ⟨by omega, rfl⟩
    · rintro ⟨_, rfl⟩; rfl

theorem fetch_eq_error {s : State} {bad : Nat} : fetch s = .error bad ↔ memSize < s.pc.toNat + 2 ∧ bad = max s.pc.toNat memSize := by
  unfold fetch
  split <;> rename_i h
  · have := checkRange_eq_some.mp h
    simp; omega
  · have := checkRange_eq_none.mp h
    simp; omega

/-! ### The stack (R30) -/

theorem State.push_eq_some {s t : State} {a : Addr} :
    s.push a = some t ↔ ∃ h : s.sp.val < 16, t = s.setStack (s.stack.set s.sp.val a) ⟨s.sp.val + 1, by omega⟩ := by
  unfold State.push
  split <;> rename_i h
  · simp only [Option.some.injEq, h, exists_true_left, eq_comm]
  · simp [h]

theorem State.push_eq_none {s : State} {a : Addr} : s.push a = none ↔ s.sp.val = 16 := by
  unfold State.push
  split <;> simp <;> omega

theorem State.pop_eq_some {s t : State} {a : Addr} :
    s.pop = some (a, t) ↔ ∃ h : 0 < s.sp.val,
      a = s.stack[s.sp.val - 1]'(by omega) ∧ t = s.setStack s.stack ⟨s.sp.val - 1, by omega⟩ := by
  unfold State.pop
  split <;> rename_i h
  · simp only [Option.some.injEq, Prod.mk.injEq, h, exists_true_left, eq_comm]
  · simp [h]

theorem State.pop_eq_none {s : State} : s.pop = none ↔ s.sp.val = 0 := by
  unfold State.pop
  split <;> simp <;> omega

/-! ### How a step ends (R127, R131, R304) -/

theorem advance_eq_next {s t : State} : advance s = .next t ↔ t = (s.setPc (s.pc + 2)).setStatus .ok := by
  simp [advance, eq_comm]

theorem transfer_eq_next {a : Addr} {s t : State} : transfer a s = .next t ↔ t = (s.setPc a).setStatus .ok := by
  simp [transfer, eq_comm]

theorem raise_eq_next {c : FaultCause} {s t : State} : raise c s = .next t ↔ t = s.latchFault c := by
  simp [raise, eq_comm]

theorem raiseInvalidAddress_eq_next {a : Nat} {s t : State} :
    raiseInvalidAddress a s = .next t ↔ t = s.latchFault (.invalidAddress (BitVec.ofNat 16 a)) := raise_eq_next

theorem skipIf_eq_next {c : Bool} {s t : State} :
    skipIf c s = .next t ↔ t = (s.setPc (if c then s.pc + 4 else s.pc + 2)).setStatus .ok := by
  cases c <;> simp [skipIf, advance, transfer, eq_comm]

/-- Everything a store at `I` can do: all bytes inside, and they are written; or the first offending address is reported (R68). -/
theorem storeAtIndex_eq_next {bs : List Byte} {s t : State} (hne : bs ≠ []) :
    storeAtIndex bs s = .next t ↔
      (s.index.toNat + bs.length ≤ memSize ∧
        t = ((s.setMem (s.mem.writeBytes s.index.toNat bs)).setPc (s.pc + 2)).setStatus .ok) ∨
      (memSize < s.index.toNat + bs.length ∧ t = s.latchFault (.invalidAddress (BitVec.ofNat 16 (max s.index.toNat memSize)))) := by
  have hlen : bs.length ≠ 0 := by simpa using hne
  unfold storeAtIndex checkData dataAddr
  rw [Nat.add_zero]
  split <;> rename_i h
  · obtain ⟨_, hlt, rfl⟩ := checkRange_eq_some.mp h
    rw [raiseInvalidAddress_eq_next]
    constructor
    · exact fun ht => .inr ⟨hlt, ht⟩
    · rintro (⟨hle, _⟩ | ⟨_, ht⟩)
      · omega
      · exact ht
  · have hle : s.index.toNat + bs.length ≤ memSize := (checkRange_eq_none.mp h).resolve_left hlen
    rw [advance_eq_next]
    constructor
    · exact fun ht => .inl ⟨hle, ht⟩
    · rintro (⟨_, ht⟩ | ⟨hlt, _⟩)
      · exact ht
      · omega

@[simp] theorem length_bcdDigits (b : Byte) : (bcdDigits b).length = 3 := rfl

@[simp] theorem length_blockRegs (s : State) (x : Reg) : (blockRegs s x).length = x.val + 1 := by
  simp [blockRegs]

theorem getElem_blockRegs (s : State) (x : Reg) (k : Nat) (hk : k < (blockRegs s x).length) :
    (blockRegs s x)[k] = s.reg ⟨k, by rw [length_blockRegs] at hk; omega⟩ := by
  simp [blockRegs, State.reg]

@[simp] theorem getElem_loadedRegs (s : State) (x r : Reg) :
    (loadedRegs s x)[r] = if r ≤ x then s.mem.read (s.index.toNat + r.val) else s.reg r := by
  simp [loadedRegs, dataAddr]

/-! ### Keys (R232) -/

/-- The scan finds the least pressed key. -/
theorem leastPressed_eq_some {s : State} {k : Fin 16} :
    leastPressed s = some k ↔ pressed s k = true ∧ ∀ j : Fin 16, j < k → pressed s j = false := by
  simp only [leastPressed, List.find?_eq_some_iff_getElem, List.getElem_finRange, List.length_finRange]
  constructor
  · rintro ⟨hp, i, hi, hik, hall⟩
    refine ⟨hp, fun j hj => ?_⟩
    have hlt : j.val < i := by
      have : i = k.val := by simpa using congrArg Fin.val hik
      omega
    simpa using hall j.val hlt
  · rintro ⟨hp, hall⟩
    refine ⟨hp, k.val, k.isLt, by simp, fun j hj => ?_⟩
    simpa using hall ⟨j, by omega⟩ hj

theorem leastPressed_eq_none {s : State} : leastPressed s = none ↔ ∀ k, pressed s k = false := by
  simp [leastPressed, List.find?_eq_none]

/-! ### Framebuffer bytes (R210) -/

@[simp] theorem xorScreenByte_get (k : Fin 256) (b : Byte) (p : Screen × Bool) (j : Nat) (hj : j < 256) :
    (xorScreenByte k b p).1[j] = if k.val = j then p.1[j] ^^^ b else p.1[j] := by
  simp only [xorScreenByte, Fin.getElem_fin, Vector.getElem_set]
  split
  · rename_i h; subst h; rfl
  · rfl

@[simp] theorem xorScreenByte_flag (k : Fin 256) (b : Byte) (p : Screen × Bool) :
    (xorScreenByte k b p).2 = (p.2 || decide (p.1[k] &&& b ≠ 0)) := rfl

@[simp] theorem screenByte_val (row : Fin 32) (col : Fin 8) : (screenByte row col).val = row.val * 8 + col.val := rfl

/-! ### One step (R120) -/

/-- What a clock does, once and for all: it only reports while halted; it faults at the fetch; it runs the decoded instruction; or it reports an unassigned
word. -/
theorem step_cases (s : State) :
    (s.halted = true ∧ step s = reportHalted s) ∨
    (s.halted = false ∧ memSize < s.pc.toNat + 2 ∧ step s = raiseInvalidAddress (max s.pc.toNat memSize) s) ∨
    (s.halted = false ∧ s.pc.toNat + 2 ≤ memSize ∧ ∃ w, fetch s = .ok w ∧
      ((∃ i, decode w = .ok i ∧ step s = exec i s) ∨ (∃ e, decode w = .error e ∧ step s = reportInvalidOpcode w s))) := by
  unfold step
  cases hh : s.halted
  · simp only [Bool.false_eq_true, if_false, true_and, false_and, false_or]
    cases hf : fetch s with
    | error bad =>
      obtain ⟨hlt, rfl⟩ := fetch_eq_error.mp hf
      exact .inl ⟨hlt, rfl⟩
    | ok w =>
      refine .inr ⟨(fetch_eq_ok.mp hf).1, w, rfl, ?_⟩
      cases hd : decode w with
      | ok i => exact .inl ⟨i, rfl, by simp [hd]⟩
      | error e => exact .inr ⟨e, rfl, by simp [hd]⟩
  · exact .inl ⟨rfl, by simp⟩

/-! ### Frames -/

/-- A frame is checked part by part. -/
theorem UnchangedExcept_mono {ps qs : List Part} {s t : State} (h : UnchangedExcept ps s t) (hsub : ∀ p, p ∈ ps → p ∈ qs) :
    UnchangedExcept qs s t :=
  fun p hp => h p fun hin => hp (hsub p hin)

end Sys2Proof.Machine
end

