-- ==== Sys2Proof/Laws/Exec.lean ====
section
/-! SUPPORT. Everything each branching meaning can do: "it answers t exactly when one of these cases holds". A meaning without a branch is one `advance`,
`transfer` or `skipIf`, whose lemmas in Laws/Ops.lean say it. -/

namespace Sys2Proof.Machine

theorem execReturn_eq_next {s t : State} :
    execReturn s = .next t ↔
      (∃ h : 0 < s.sp.val, t = ((s.setStack s.stack ⟨s.sp.val - 1, by omega⟩).setPc (s.stack[s.sp.val - 1]'(by omega) + 2)).setStatus .ok) ∨
      (s.sp.val = 0 ∧ t = s.latchFault .stackUnderflow) := by
  unfold execReturn
  split <;> rename_i h
  · obtain ⟨hs, rfl, rfl⟩ := State.pop_eq_some.mp h
    rw [transfer_eq_next]
    exact ⟨fun ht => .inl ⟨hs, ht⟩, fun ht => ht.elim (fun ⟨_, ht⟩ => ht) fun ⟨h0, _⟩ => absurd h0 (by omega)⟩
  · have h0 := State.pop_eq_none.mp h
    rw [raise_eq_next]
    exact ⟨fun ht => .inr ⟨h0, ht⟩, fun ht => ht.elim (fun ⟨hs, _⟩ => absurd h0 (by omega)) fun ⟨_, ht⟩ => ht⟩

theorem execCall_eq_next {nnn : BitVec 12} {s t : State} :
    execCall nnn s = .next t ↔
      (∃ h : s.sp.val < 16,
        t = ((s.setStack (s.stack.set s.sp.val s.pc) ⟨s.sp.val + 1, by omega⟩).setPc (addrOf nnn)).setStatus .ok) ∨
      (s.sp.val = 16 ∧ t = s.latchFault .stackOverflow) := by
  unfold execCall
  split <;> rename_i h
  · obtain ⟨hs, rfl⟩ := State.push_eq_some.mp h
    rw [transfer_eq_next]
    exact ⟨fun ht => .inl ⟨hs, ht⟩, fun ht => ht.elim (fun ⟨_, ht⟩ => ht) fun ⟨h0, _⟩ => absurd h0 (by omega)⟩
  · have h0 := State.push_eq_none.mp h
    rw [raise_eq_next]
    exact ⟨fun ht => .inr ⟨h0, ht⟩, fun ht => ht.elim (fun ⟨hs, _⟩ => absurd h0 (by omega)) fun ⟨_, ht⟩ => ht⟩

theorem execAddIndexFromReg_eq_next {x : Reg} {s t : State} :
    execAddIndexFromReg x s = .next t ↔
      (s.index.toNat + (s.reg x).toNat < memSize ∧
        t = ((s.setIndex (BitVec.ofNat 16 (s.index.toNat + (s.reg x).toNat))).setPc (s.pc + 2)).setStatus .ok) ∨
      (memSize ≤ s.index.toNat + (s.reg x).toNat ∧
        t = s.latchFault (.invalidAddress (BitVec.ofNat 16 (s.index.toNat + (s.reg x).toNat)))) := by
  unfold execAddIndexFromReg dataAddr
  split <;> rename_i h
  · rw [advance_eq_next]
    exact ⟨fun ht => .inl ⟨h, ht⟩, fun ht => ht.elim (fun ⟨_, ht⟩ => ht) fun ⟨hge, _⟩ => absurd h (by omega)⟩
  · rw [raiseInvalidAddress_eq_next]
    exact ⟨fun ht => .inr ⟨by omega, ht⟩, fun ht => ht.elim (fun ⟨hlt, _⟩ => absurd hlt h) fun ⟨_, ht⟩ => ht⟩

theorem execDraw_eq_next {x y : Reg} {n : Fin 16} {s t : State} :
    execDraw x y n s = .next t ↔
      ((n.val = 0 ∨ s.index.toNat + n.val ≤ memSize) ∧
        t = (((s.setScreen (blit s (s.reg x) (s.reg y) n.val).1).setReg flagReg
              (flagByte (blit s (s.reg x) (s.reg y) n.val).2)).setPc (s.pc + 2)).setStatus .ok) ∨
      (n.val ≠ 0 ∧ memSize < s.index.toNat + n.val ∧
        t = s.latchFault (.invalidAddress (BitVec.ofNat 16 (max s.index.toNat memSize)))) := by
  unfold execDraw checkData dataAddr
  rw [Nat.add_zero]
  split <;> rename_i h
  · obtain ⟨h0, hlt, rfl⟩ := checkRange_eq_some.mp h
    rw [raiseInvalidAddress_eq_next]
    exact ⟨fun ht => .inr ⟨h0, hlt, ht⟩, fun ht => ht.elim (fun ⟨hc, _⟩ => absurd hc (by omega)) fun ⟨_, _, ht⟩ => ht⟩
  · have hle := checkRange_eq_none.mp h
    rw [advance_eq_next]
    exact ⟨fun ht => .inl ⟨hle, ht⟩, fun ht => ht.elim (fun ⟨_, ht⟩ => ht) fun ⟨h0, hlt, _⟩ => absurd hle (by omega)⟩

theorem execWaitKey_eq_next {x : Reg} {s t : State} :
    execWaitKey x s = .next t ↔
      (∃ k, leastPressed s = some k ∧ t = ((s.setReg x (BitVec.ofNat 8 k.val)).setPc (s.pc + 2)).setStatus .ok) ∨
      (leastPressed s = none ∧ t = (s.setPc s.pc).setStatus .ok) := by
  unfold execWaitKey
  split <;> rename_i h
  · rw [advance_eq_next]
    simp [h]
  · rw [transfer_eq_next]
    simp [h]

theorem execStoreBcd_eq_next {x : Reg} {s t : State} :
    execStoreBcd x s = .next t ↔
      (s.index.toNat + 3 ≤ memSize ∧
        t = ((s.setMem (s.mem.writeBytes s.index.toNat (bcdDigits (s.reg x)))).setPc (s.pc + 2)).setStatus .ok) ∨
      (memSize < s.index.toNat + 3 ∧ t = s.latchFault (.invalidAddress (BitVec.ofNat 16 (max s.index.toNat memSize)))) :=
  storeAtIndex_eq_next (List.cons_ne_nil _ _)

theorem execStoreRegsToMem_eq_next {x : Reg} {s t : State} :
    execStoreRegsToMem x s = .next t ↔
      (s.index.toNat + (x.val + 1) ≤ memSize ∧
        t = ((s.setMem (s.mem.writeBytes s.index.toNat (blockRegs s x))).setPc (s.pc + 2)).setStatus .ok) ∨
      (memSize < s.index.toNat + (x.val + 1) ∧ t = s.latchFault (.invalidAddress (BitVec.ofNat 16 (max s.index.toNat memSize)))) := by
  have hne : blockRegs s x ≠ [] := by
    intro h
    have := length_blockRegs s x
    simp [h] at this
  have := storeAtIndex_eq_next (s := s) (t := t) hne
  rwa [length_blockRegs] at this

theorem execLoadRegsFromMem_eq_next {x : Reg} {s t : State} :
    execLoadRegsFromMem x s = .next t ↔
      (s.index.toNat + (x.val + 1) ≤ memSize ∧ t = ((s.setRegs (loadedRegs s x)).setPc (s.pc + 2)).setStatus .ok) ∨
      (memSize < s.index.toNat + (x.val + 1) ∧ t = s.latchFault (.invalidAddress (BitVec.ofNat 16 (max s.index.toNat memSize)))) := by
  unfold execLoadRegsFromMem checkData dataAddr
  rw [Nat.add_zero]
  split <;> rename_i h
  · obtain ⟨_, hlt, rfl⟩ := checkRange_eq_some.mp h
    rw [raiseInvalidAddress_eq_next]
    exact ⟨fun ht => .inr ⟨hlt, ht⟩, fun ht => ht.elim (fun ⟨hc, _⟩ => absurd hc (by omega)) fun ⟨_, ht⟩ => ht⟩
  · have hle : s.index.toNat + (x.val + 1) ≤ memSize := (checkRange_eq_none.mp h).resolve_left (by omega)
    rw [advance_eq_next]
    exact ⟨fun ht => .inl ⟨hle, ht⟩, fun ht => ht.elim (fun ⟨_, ht⟩ => ht) fun ⟨hlt, _⟩ => absurd hlt (by omega)⟩

end Sys2Proof.Machine
end

