-- ==== Sys2Proof/Laws/PerInstr.lean ====
section
/-! SUPPORT. Statements for all instructions, one lemma per constructor. `EncodingRow`: an instruction's word selects the row of the opcode map that stands
for it (R96), and that row is in the map. -/

namespace Sys2Proof.Laws.EncodingRow

/-- The word of `i` selects the row of `i`, and the map has that row. -/
def Statement (i : Instr) : Prop := (rowOf i).selects (encode i) = true ∧ rowOf i ∈ opcodeMap

/-- Masking an append masks its parts. -/
theorem append_mask {v w : Nat} (a b : BitVec v) (c d : BitVec w) : (a ++ c) &&& (b ++ d) = (a &&& b) ++ (c &&& d) := by
  apply BitVec.eq_of_getLsbD_eq
  intro i hi
  simp only [BitVec.getLsbD_and, BitVec.getLsbD_append]
  split <;> rfl

/-- Masking the top nibble of a word leaves that nibble. -/
theorem mask_top (op : BitVec 4) (nnn : BitVec 12) : (op ++ nnn : Word) &&& 0xF000 = (op ++ 0#12 : Word) := by
  have h := append_mask op 0xF#4 nnn 0#12
  have h1 : op &&& 0xF#4 = op := BitVec.and_allOnes
  rw [h1, BitVec.and_zero] at h
  exact h

/-- Masking the top nibble and the low byte of a word leaves them. -/
theorem mask_byte (op x : BitVec 4) (nn : BitVec 8) : (op ++ (x ++ nn : BitVec 12) : Word) &&& 0xF0FF = (op ++ (0#4 ++ nn : BitVec 12) : Word) := by
  have h := append_mask op 0xF#4 (x ++ nn) (0#4 ++ 0xFF#8)
  have h1 : op &&& 0xF#4 = op := BitVec.and_allOnes
  have h2 : nn &&& 0xFF#8 = nn := BitVec.and_allOnes
  rw [h1, append_mask x 0#4 nn 0xFF#8, BitVec.and_zero, h2] at h
  exact h

/-- Masking the top and the last nibble of a word leaves them. -/
theorem mask_nibble (op x y n : BitVec 4) :
    (op ++ (x ++ (y ++ n : BitVec 8) : BitVec 12) : Word) &&& 0xF00F = (op ++ (0#4 ++ (0#4 ++ n : BitVec 8) : BitVec 12) : Word) := by
  have h := append_mask op 0xF#4 (x ++ (y ++ n)) (0#4 ++ (0#4 ++ 0xF#4))
  have h1 : op &&& 0xF#4 = op := BitVec.and_allOnes
  have h2 : n &&& 0xF#4 = n := BitVec.and_allOnes
  rw [h1, append_mask x 0#4 (y ++ n) (0#4 ++ 0xF#4), append_mask y 0#4 n 0xF#4, BitVec.and_zero, BitVec.and_zero, h2] at h
  exact h

/-- From the masked word to the statement. -/
theorem of_mask {i : Instr} (h : encode i &&& (rowOf i).mask = (rowOf i).pattern) (hm : rowOf i ∈ opcodeMap) : Statement i :=
  ⟨by simp only [Row.selects, h, beq_self_eq_true], hm⟩

theorem clear : Statement .clear := ⟨by decide, by decide⟩

theorem ret : Statement .ret := ⟨by decide, by decide⟩

theorem jump (nnn : BitVec 12) : Statement (.jump nnn) :=
  of_mask (mask_top _ _) (of_decide_eq_true rfl)

theorem call (nnn : BitVec 12) : Statement (.call nnn) :=
  of_mask (mask_top _ _) (of_decide_eq_true rfl)

theorem skipEqImm (x : Reg) (nn : Byte) : Statement (.skipEqImm x nn) :=
  of_mask (mask_top _ _) (of_decide_eq_true rfl)

theorem skipNeImm (x : Reg) (nn : Byte) : Statement (.skipNeImm x nn) :=
  of_mask (mask_top _ _) (of_decide_eq_true rfl)

theorem skipEqReg (x : Reg) (y : Reg) : Statement (.skipEqReg x y) :=
  of_mask (mask_nibble _ _ _ _) (of_decide_eq_true rfl)

theorem loadImm (x : Reg) (nn : Byte) : Statement (.loadImm x nn) :=
  of_mask (mask_top _ _) (of_decide_eq_true rfl)

theorem addImm (x : Reg) (nn : Byte) : Statement (.addImm x nn) :=
  of_mask (mask_top _ _) (of_decide_eq_true rfl)

theorem copy (x : Reg) (y : Reg) : Statement (.copy x y) :=
  of_mask (mask_nibble _ _ _ _) (of_decide_eq_true rfl)

theorem or (x : Reg) (y : Reg) : Statement (.or x y) :=
  of_mask (mask_nibble _ _ _ _) (of_decide_eq_true rfl)

theorem and (x : Reg) (y : Reg) : Statement (.and x y) :=
  of_mask (mask_nibble _ _ _ _) (of_decide_eq_true rfl)

theorem xor (x : Reg) (y : Reg) : Statement (.xor x y) :=
  of_mask (mask_nibble _ _ _ _) (of_decide_eq_true rfl)

theorem addCarry (x : Reg) (y : Reg) : Statement (.addCarry x y) :=
  of_mask (mask_nibble _ _ _ _) (of_decide_eq_true rfl)

theorem subBorrow (x : Reg) (y : Reg) : Statement (.subBorrow x y) :=
  of_mask (mask_nibble _ _ _ _) (of_decide_eq_true rfl)

theorem shiftRight (x : Reg) (y : Reg) : Statement (.shiftRight x y) :=
  of_mask (mask_nibble _ _ _ _) (of_decide_eq_true rfl)

theorem subBorrowRev (x : Reg) (y : Reg) : Statement (.subBorrowRev x y) :=
  of_mask (mask_nibble _ _ _ _) (of_decide_eq_true rfl)

theorem shiftLeft (x : Reg) (y : Reg) : Statement (.shiftLeft x y) :=
  of_mask (mask_nibble _ _ _ _) (of_decide_eq_true rfl)

theorem skipNeReg (x : Reg) (y : Reg) : Statement (.skipNeReg x y) :=
  of_mask (mask_nibble _ _ _ _) (of_decide_eq_true rfl)

theorem loadIndex (nnn : BitVec 12) : Statement (.loadIndex nnn) :=
  of_mask (mask_top _ _) (of_decide_eq_true rfl)

theorem jump0 (nnn : BitVec 12) : Statement (.jump0 nnn) :=
  of_mask (mask_top _ _) (of_decide_eq_true rfl)

theorem random (x : Reg) (nn : Byte) : Statement (.random x nn) :=
  of_mask (mask_top _ _) (of_decide_eq_true rfl)

theorem draw (x : Reg) (y : Reg) (n : Fin 16) : Statement (.draw x y n) :=
  of_mask (mask_top _ _) (of_decide_eq_true rfl)

theorem skipIfPressed (x : Reg) : Statement (.skipIfPressed x) :=
  of_mask (mask_byte _ _ _) (of_decide_eq_true rfl)

theorem skipIfNotPressed (x : Reg) : Statement (.skipIfNotPressed x) :=
  of_mask (mask_byte _ _ _) (of_decide_eq_true rfl)

theorem storeDelay (x : Reg) : Statement (.storeDelay x) :=
  of_mask (mask_byte _ _ _) (of_decide_eq_true rfl)

theorem waitKey (x : Reg) : Statement (.waitKey x) :=
  of_mask (mask_byte _ _ _) (of_decide_eq_true rfl)

theorem setDelay (x : Reg) : Statement (.setDelay x) :=
  of_mask (mask_byte _ _ _) (of_decide_eq_true rfl)

theorem setSound (x : Reg) : Statement (.setSound x) :=
  of_mask (mask_byte _ _ _) (of_decide_eq_true rfl)

theorem addIndexFromReg (x : Reg) : Statement (.addIndexFromReg x) :=
  of_mask (mask_byte _ _ _) (of_decide_eq_true rfl)

theorem fontAddress (x : Reg) : Statement (.fontAddress x) :=
  of_mask (mask_byte _ _ _) (of_decide_eq_true rfl)

theorem storeBcd (x : Reg) : Statement (.storeBcd x) :=
  of_mask (mask_byte _ _ _) (of_decide_eq_true rfl)

theorem storeRegsToMem (x : Reg) : Statement (.storeRegsToMem x) :=
  of_mask (mask_byte _ _ _) (of_decide_eq_true rfl)

theorem loadRegsFromMem (x : Reg) : Statement (.loadRegsFromMem x) :=
  of_mask (mask_byte _ _ _) (of_decide_eq_true rfl)

end Sys2Proof.Laws.EncodingRow
end

