-- ==== Sys2Proof/Laws/RunEnd.lean ====
section
/-! SUPPORT. When a run has ended (R16), and that only `HALTED`, `PC` and memory decide it. -/

namespace Sys2Proof.Machine

theorem jumpsTo_eq_true {a : Addr} {i : Instr} : jumpsTo a i = true ↔ ∃ nnn, i = .jump nnn ∧ addrOf nnn = a := by
  cases i <;> simp [jumpsTo]

/-- `PC` is at a `jump` to itself exactly when the word fetched there is one. -/
theorem atSelfJump_eq_true {s : State} :
    atSelfJump s = true ↔ ∃ w nnn, fetch s = .ok w ∧ decode w = .ok (.jump nnn) ∧ addrOf nnn = s.pc := by
  unfold atSelfJump
  cases hf : fetch s with
  | error bad => simp
  | ok w =>
    cases hd : decode w with
    | error e => simp [hd]
    | ok i => simp [hd, jumpsTo_eq_true]

theorem runPhase_eq_faulted {s : State} : runPhase s = .faulted ↔ s.halted = true := by
  unfold runPhase
  split
  · simp_all
  · split <;> simp_all

theorem runPhase_eq_finished {s : State} : runPhase s = .finished ↔ s.halted = false ∧ atSelfJump s = true := by
  unfold runPhase
  split
  · simp_all
  · split <;> simp_all

/-- The phase of a run depends on `HALTED`, `PC` and memory alone. -/
theorem runPhase_congr {s t : State} (hh : t.halted = s.halted) (hpc : t.pc = s.pc) (hmem : t.mem = s.mem) : runPhase t = runPhase s := by
  have hf : fetch t = fetch s := by simp only [fetch, hpc, hmem]
  have ha : atSelfJump t = atSelfJump s := by unfold atSelfJump; rw [hf, hpc]
  unfold runPhase
  rw [hh, ha]

end Sys2Proof.Machine
end

