-- ==== Sys2Proof/Laws/Step.lean ====
section
/-! SUPPORT. A table word placed by `withFetchWord` is the word that the next step fetches. -/

namespace Sys2Proof.Machine

/-- In a memory in canonical form, the word placed at `PC` is fetched there. -/
theorem fetch_withFetchWord {s : State} (nbits w : Nat) (hmem : s.mem.wf = true) (hpc : s.pc.toNat + 2 ≤ memSize) :
    fetch (s.withFetchWord nbits w) = .ok (tableWord nbits w) := by
  have hlen : s.pc.toNat + [highByte (tableWord nbits w), lowByte (tableWord nbits w)].length ≤ memSize := hpc
  have h0 := Memory.read_writeBytes_inside _ hmem hlen 0 (by simp)
  have h1 := Memory.read_writeBytes_inside _ hmem hlen 1 (by simp)
  refine fetch_eq_ok.mpr ⟨hpc, ?_⟩
  simp only [State.withFetchWord, State.setMem_mem, State.setMem_pc]
  simp only [Nat.add_zero] at h0
  rw [h0, h1]
  simp

end Sys2Proof.Machine
end

