-- ==== Sys2Proof/Tests/Slice0.lean ====
section
/-! SUPPORT. The model's own tests: the well-formedness smoke test, one written word per instruction, one step per instruction on the vectors of
95_test_vectors.md, the host operations, and a witness for the hypotheses of every statement. -/

namespace Sys2Proof.Tests

open Sys2Proof.Machine

/-! ## Well-formedness: an ill-formed record for each check (R92) -/

def goodFields : Fields := ⟨0xD125, 0xD, 0x1, 0x2, 0x5, 0x25, 0x125⟩

theorem test_good_fields : goodFields.wellFormed = true := by decide

theorem test_bad_nn_refused : ({ goodFields with n := 0x6 } : Fields).nnAgrees = false ∧ ({ goodFields with n := 0x6 } : Fields).wellFormed = false := by decide

theorem test_bad_nnn_refused : ({ goodFields with x := 0x2 } : Fields).nnnAgrees = false ∧ ({ goodFields with x := 0x2 } : Fields).wellFormed = false := by decide

theorem test_bad_code_refused : ({ goodFields with op := 0xC } : Fields).codeAgrees = false ∧ ({ goodFields with op := 0xC } : Fields).wellFormed = false := by decide

/-! ## Decoding: one word per instruction, written out from the patterns of R96; the vectors' words are 95_test_vectors.md's -/

theorem test_decode_flow :
    decode 0x00E0 = .ok .clear ∧ decode 0x00EE = .ok .ret ∧ decode 0x1FFF = .ok (.jump 0xFFF) ∧ decode 0x2300 = .ok (.call 0x300) ∧
    decode 0xBFFF = .ok (.jump0 0xFFF) := by decide

theorem test_decode_skips :
    decode 0x3A42 = .ok (.skipEqImm 0xA 0x42) ∧ decode 0x4A42 = .ok (.skipNeImm 0xA 0x42) ∧ decode 0x5AB0 = .ok (.skipEqReg 0xA 0xB) ∧
    decode 0x9AB0 = .ok (.skipNeReg 0xA 0xB) := by decide

theorem test_decode_alu :
    decode 0x6A3C = .ok (.loadImm 0xA 0x3C) ∧ decode 0x7A02 = .ok (.addImm 0xA 0x02) ∧ decode 0x8120 = .ok (.copy 1 2) ∧ decode 0x8121 = .ok (.or 1 2) ∧
    decode 0x8122 = .ok (.and 1 2) ∧ decode 0x8123 = .ok (.xor 1 2) ∧ decode 0x8124 = .ok (.addCarry 1 2) ∧ decode 0x8125 = .ok (.subBorrow 1 2) ∧
    decode 0x8126 = .ok (.shiftRight 1 2) ∧ decode 0x8127 = .ok (.subBorrowRev 1 2) ∧ decode 0x812E = .ok (.shiftLeft 1 2) := by decide

theorem test_decode_index_random_draw :
    decode 0xA300 = .ok (.loadIndex 0x300) ∧ decode 0xF11E = .ok (.addIndexFromReg 1) ∧ decode 0xF129 = .ok (.fontAddress 1) ∧
    decode 0xC30F = .ok (.random 3 0x0F) ∧ decode 0xD125 = .ok (.draw 1 2 5) := by decide

theorem test_decode_keys_timers_memory :
    decode 0xE19E = .ok (.skipIfPressed 1) ∧ decode 0xE7A1 = .ok (.skipIfNotPressed 7) ∧ decode 0xF10A = .ok (.waitKey 1) ∧
    decode 0xF207 = .ok (.storeDelay 2) ∧ decode 0xF015 = .ok (.setDelay 0) ∧ decode 0xF218 = .ok (.setSound 2) ∧ decode 0xF033 = .ok (.storeBcd 0) ∧
    decode 0xF355 = .ok (.storeRegsToMem 3) ∧ decode 0xF265 = .ok (.loadRegsFromMem 2) := by decide

/-- Vectors F5 to F9: unassigned words of every group. -/
theorem test_unassigned_words_a :
    decode 0x0000 = .error (.unassigned 0x0000) ∧ decode 0x0123 = .error (.unassigned 0x0123) ∧ decode 0x00EF = .error (.unassigned 0x00EF) ∧
    decode 0x01E0 = .error (.unassigned 0x01E0) ∧ decode 0x5AB1 = .error (.unassigned 0x5AB1) := by decide
theorem test_unassigned_words_b :
    decode 0x9AB1 = .error (.unassigned 0x9AB1) ∧ decode 0x8128 = .error (.unassigned 0x8128) ∧ decode 0xE19F = .error (.unassigned 0xE19F) ∧
    decode 0xF100 = .error (.unassigned 0xF100) ∧ decode 0xFFFF = .error (.unassigned 0xFFFF) := by decide

theorem test_truncated : decodeBytes [0xD1] = .error .truncated := by decide

theorem test_bytes_are_big_endian : decodeBytes [0xD1, 0x25, 0xAA] = .ok (.draw 1 2 5, [0xAA]) ∧ encodeBytes (.draw 1 2 5) = [0xD1, 0x25] := by decide

theorem test_table_word : decodeTableWord 16 0xD125 = some (.draw 1 2 5) ∧ decodeTableWord 16 0x5121 = none := by decide

/-! ## One step -/

/-- The reset state with `LEGACY_SHIFT` at a known level. -/
def base : State := { State.reset with legacyShift := false }

/-- The state one `clock` after the word `w` was placed at `PC`. -/
def after (w : Nat) (s : State) : State :=
  match step (s.withFetchWord 16 w) with
  | .next t => t
  | .fault _ => s
  | .refused _ => s

/-- Reset memory with bytes placed at an address. -/
def memWith (a : Nat) (bs : List Byte) : Memory := Memory.writeBytes [] a bs

/-- Vector K1. -/
theorem test_clear :
    let t := after 0x00E0 { base with fb := (base.fb.set 3 0xAA).set 255 0x01 }
    t.fb[3] = 0 ∧ t.fb[255] = 0 ∧ t.drawn = true ∧ t.pc = 0x202 ∧ t.status = .ok := by decide

/-- S6 and vector K6. -/
theorem test_return : (after 0x00EE ((base.setStack (base.stack.set 0 0x208) 1))).pc = 0x20A := by decide
theorem test_return_underflow : (after 0x00EE base).fault = .stackUnderflow ∧ (after 0x00EE base).pc = 0x200 ∧ (after 0x00EE base).halted = true := by decide

/-- Vectors K3, K4. -/
theorem test_jump : (after 0x1FFF base).pc = 0xFFF ∧ (after 0x1FFF base).status = .ok ∧ (after 0x1201 base).pc = 0x201 := by decide

/-- Vectors K5, K7. -/
theorem test_call : (after 0x2300 base).pc = 0x300 ∧ (after 0x2300 base).sp = 1 ∧ (after 0x2300 base).stack[0] = 0x200 := by decide
theorem test_call_overflow : (after 0x2222 { base with sp := 16 }).fault = .stackOverflow ∧ (after 0x2222 { base with sp := 16 }).sp = 16 := by decide

/-- Vectors K8, K9. -/
theorem test_jump0 : (after 0xB300 (base.setReg 0 0x10)).pc = 0x310 ∧ (after 0xBFFF (base.setReg 0 0xFF)).pc = 0x10FE := by decide

/-- Vectors K10 to K17. -/
theorem test_skips_imm :
    (after 0x3A42 (base.setReg 0xA 0x42)).pc = 0x204 ∧ (after 0x3A42 (base.setReg 0xA 0x41)).pc = 0x202 ∧
    (after 0x4A42 (base.setReg 0xA 0x42)).pc = 0x202 ∧ (after 0x4A42 (base.setReg 0xA 0x41)).pc = 0x204 := by decide
theorem test_skips_reg :
    (after 0x5AB0 ((base.setReg 0xA 7).setReg 0xB 7)).pc = 0x204 ∧ (after 0x5AB0 ((base.setReg 0xA 7).setReg 0xB 8)).pc = 0x202 ∧
    (after 0x9AB0 ((base.setReg 0xA 7).setReg 0xB 7)).pc = 0x202 ∧ (after 0x9AB0 ((base.setReg 0xA 7).setReg 0xB 8)).pc = 0x204 := by decide

/-- S1. -/
theorem test_add_imm_wraps :
    let t := after 0x7A02 ((base.setReg 0xA 0xFF).setReg 0xF 0x07)
    t.reg 0xA = 0x01 ∧ t.reg 0xF = 0x07 := by decide

theorem test_load_imm : (after 0x6A3C base).reg 0xA = 0x3C := by decide

/-- The worked examples of R162 to R165. -/
theorem test_copy_and_bitwise :
    let s := ((base.setReg 0 0xF0).setReg 1 0x3C).setReg 0xF 0x01
    (after 0x8EF0 s).reg 0xE = 0x01 ∧ (after 0x8011 s).reg 0 = 0xFC ∧ (after 0x8012 s).reg 0 = 0x30 ∧ (after 0x8013 s).reg 0 = 0xCC ∧
    (after 0x8011 s).reg 0xF = 0x01 := by decide

/-- Vectors A10, A30, A31, A36. -/
theorem test_add_carry :
    let t := after 0x8124 ((base.setReg 1 0xFF).setReg 2 0x01)
    t.reg 1 = 0 ∧ t.reg 0xF = 1 := by decide
theorem test_add_carry_vf :
    (after 0x8F14 ((base.setReg 0xF 0x10).setReg 1 0x20)).reg 0xF = 0x30 ∧ (after 0x81F4 ((base.setReg 0xF 0x02).setReg 1 0xFF)).reg 1 = 0x01 ∧
    (after 0x81F4 ((base.setReg 0xF 0x02).setReg 1 0xFF)).reg 0xF = 0x01 ∧ (after 0x8FF4 (base.setReg 0xF 0x05)).reg 0xF = 0x0A := by decide

/-- Vectors A14, A15, A34. -/
theorem test_sub_borrow :
    (after 0x8125 ((base.setReg 1 0x03).setReg 2 0x05)).reg 1 = 0xFE ∧ (after 0x8125 ((base.setReg 1 0x03).setReg 2 0x05)).reg 0xF = 0 ∧
    (after 0x8125 ((base.setReg 1 0x05).setReg 2 0x05)).reg 0xF = 1 ∧ (after 0x8F15 ((base.setReg 0xF 0x05).setReg 1 0x03)).reg 0xF = 0x02 := by decide

/-- Vectors A17, A18, A38, A39. -/
theorem test_sub_borrow_rev :
    (after 0x8127 ((base.setReg 1 0x03).setReg 2 0x05)).reg 1 = 0x02 ∧ (after 0x8127 ((base.setReg 1 0x05).setReg 2 0x03)).reg 0xF = 0 ∧
    (after 0x8F17 ((base.setReg 0xF 0x05).setReg 1 0x03)).reg 0xF = 0xFE ∧ (after 0x8F07 ((base.setReg 0xF 0x02).setReg 0 0x09)).reg 0xF = 0x07 := by decide

/-- Vectors A20 to A24, A40, A41. -/
theorem test_shifts_in_place :
    let s := (base.setReg 1 0x81).setReg 2 0x02
    (after 0x8126 s).reg 1 = 0x40 ∧ (after 0x8126 s).reg 0xF = 1 ∧ (after 0x812E s).reg 1 = 0x02 ∧ (after 0x812E s).reg 0xF = 1 := by decide
theorem test_shifts_legacy :
    let s := { (base.setReg 1 0x81).setReg 2 0xC0 with legacyShift := true }
    (after 0x812E s).reg 1 = 0x80 ∧ (after 0x812E s).reg 0xF = 1 ∧ (after 0x8F2E s).reg 0xF = 0x80 ∧ (after 0x8126 s).reg 1 = 0x60 ∧
    (after 0x8126 s).reg 2 = 0xC0 := by decide

/-- Vectors I1, I3 to I6. -/
theorem test_load_index : (after 0xAFFF base).index = 0xFFF := by decide
theorem test_add_index :
    (after 0xF11E ((base.setIndex 0xFF0).setReg 1 0x0E)).index = 0xFFE ∧
    (after 0xF11E ((base.setIndex 0xFF0).setReg 1 0x0F)).fault = .invalidAddress 0xFFF ∧
    (after 0xF11E ((base.setIndex 0xFF0).setReg 1 0x0F)).index = 0xFF0 ∧ (after 0xF11E (base.setIndex 0xFFF)).fault = .invalidAddress 0xFFF := by decide

/-- Vectors I7, I9, I10. -/
theorem test_font_address :
    (after 0xF129 (base.setReg 1 0x0F)).index = 0x4B ∧ (after 0xF129 (base.setReg 1 0x10)).index = 0x50 ∧
    (after 0xF129 (base.setReg 1 0xFF)).index = 0x4FB := by decide

/-- `random` takes the first free sample and masks it (R199). -/
theorem test_random : (after 0xC10F base).reg 1 = Config.rand 0 &&& 0x0F ∧ (after 0xC10F base).draws = 1 := ⟨rfl, rfl⟩

/-- The worked example of R219 (vector T5). -/
theorem test_draw_wraps :
    let t := after 0xD013 { base with mem := memWith 0x300 [0xAA, 0x55, 0xFF], index := 0x300, v := (base.v.set 0 13).set 1 31, fb := base.fb.set 10 0x10 }
    t.fb[1] = 0x02 ∧ t.fb[2] = 0xA8 ∧ t.fb[9] = 0x07 ∧ t.fb[10] = 0xE8 ∧ t.fb[249] = 0x05 ∧ t.fb[250] = 0x50 ∧ t.reg 0xF = 1 ∧ t.drawn = true := by decide

/-- Vectors T7, T8 and T10. -/
theorem test_draw_corners :
    let s := { base with index := 0xFFF, v := base.v.set 15 9 }
    let u := after 0xDF01 { base with mem := memWith 0x300 [0xC0], index := 0x300, v := (base.v.set 15 10).set 0 3 }
    (after 0xD010 s).reg 0xF = 0 ∧ (after 0xD010 s).status = .ok ∧ (after 0xD014 { s with index := 0xFFC }).fault = .invalidAddress 0xFFF ∧
    (after 0xD014 { s with index := 0xFFC }).reg 0xF = 9 ∧ u.fb[25] = 0x30 ∧ u.reg 0xF = 0 := by decide

/-- Vectors Y1 to Y5. -/
theorem test_key_skips :
    let s := { base.setReg 1 0x17 with key := 0x0080 }
    (after 0xE19E s).pc = 0x204 ∧ (after 0xE1A1 s).pc = 0x202 ∧ (after 0xE19E base).pc = 0x202 ∧ (after 0xE1A1 base).pc = 0x204 := by decide

/-- Vectors Y6 to Y8. -/
theorem test_wait_key :
    (after 0xF10A (base.setReg 1 0x55)).pc = 0x200 ∧ (after 0xF10A (base.setReg 1 0x55)).reg 1 = 0x55 ∧
    (after 0xF10A { base with key := 0x0208 }).reg 1 = 0x03 ∧ (after 0xF10A { base with key := 0x0208 }).pc = 0x202 := by decide

/-- Vectors Y9 to Y11. -/
theorem test_timer_moves :
    (after 0xF107 { base with dt := 0x3C }).reg 1 = 0x3C ∧ (after 0xF115 (base.setReg 1 0x3C)).dt = 0x3C ∧ (after 0xF118 (base.setReg 1 0x05)).st = 0x05 := by decide

/-- Vectors B1, B2. -/
theorem test_block_store :
    (after 0xF055 ((base.setIndex 0xFFE).setReg 0 0xAB)).mem.read 0xFFE = 0xAB ∧ (after 0xF155 ((base.setIndex 0xFFE).setReg 0 0xAB)).mem.read 0xFFE = 0 ∧
    (after 0xF155 ((base.setIndex 0xFFE).setReg 0 0xAB)).fault = .invalidAddress 0xFFF := by decide

/-- The worked example of R251, and B4. -/
theorem test_block_load :
    let t := after 0xF265 { base with mem := memWith 0x300 [0x02, 0x05, 0x04, 0x77], index := 0x300 }
    t.reg 0 = 0x02 ∧ t.reg 1 = 0x05 ∧ t.reg 2 = 0x04 ∧ t.reg 3 = 0 ∧ (after 0xF165 (base.setIndex 0xFFE)).fault = .invalidAddress 0xFFF := by decide

/-- Vectors B5, B6. -/
theorem test_bcd :
    let t := after 0xF033 ((base.setIndex 0xFFC).setReg 0 0xFE)
    t.mem.read 0xFFC = 2 ∧ t.mem.read 0xFFD = 5 ∧ t.mem.read 0xFFE = 4 ∧ (after 0xF033 (base.setIndex 0xFFD)).fault = .invalidAddress 0xFFF := by decide

/-! ## Fetch, reports, halted clocks -/

/-- Vectors F1, F3, F4. -/
theorem test_fetch_edges :
    (after 0x6A42 { base with pc := 0xFFD }).reg 0xA = 0x42 ∧ (after 0x6A42 { base with pc := 0xFFD }).pc = 0xFFF ∧
    (step { base with pc := 0xFFE }) = .next ({ base with pc := 0xFFE }.latchFault (.invalidAddress 0xFFF)) ∧
    (after 0x6A42 { base with pc := 0x201 }).pc = 0x203 := ⟨by decide, by decide, rfl, by decide⟩

/-- Vectors F5, F6. -/
theorem test_report : (after 0x0123 base).status = .invalidOpcode 0x0123 ∧ (after 0x0123 base).pc = 0x202 ∧ (after 0x0123 base).halted = false := by decide

/-- F2: the second clock reports the same fault. -/
theorem test_halted_reports :
    let s := { base with halted := true, fault := .invalidAddress 0xFFF, pc := 0xFFF }
    step s = .next { s with status := .fault (.invalidAddress 0xFFF) } := rfl

/-- R342: with nothing loaded, the first clock reports `InvalidOpcode(0x0000)`. -/
theorem test_reset_runs_empty_memory : step State.reset = .next { State.reset with pc := 0x202, status := .invalidOpcode 0x0000 } := rfl

/-- Vector K2, under the DEFAULT font of R37: the word at 0 is F090. -/
theorem test_default_font : wordAtPc { base with pc := 0 } = 0xF090 := by decide +kernel

/-! ## Host operations -/

/-- Vectors Y12, Y13. -/
theorem test_tick :
    let t := tick { base with dt := 2, st := 1, key := 0x10, drawn := true }
    t.dt = 1 ∧ t.st = 0 ∧ t.key = 0 ∧ t.drawn = true ∧ (tick t).st = 0 ∧ (tick { base with drawn := true, ack := true }).drawn = false := by decide

/-- Vector Y14: an acknowledge in Idle loses the announcement of the next clear. -/
theorem test_handshake_loss :
    let s := after 0x00E0 (acknowledgeDraw base)
    s.drawn = true ∧ s.ack = true ∧ (tick s).drawn = false ∧ (tick s).ack = false := by decide

/-- S7's keys and S9's sizes. -/
theorem test_set_key : (setKey 3 true (setKey 9 true base)).key = 0x0208 ∧ (setKey 9 false { base with key := 0x0208 }).key = 0x0008 := by decide
theorem test_load : (load [0x60, 0x2A] base).1.mem = [(0x200, 0x60), (0x201, 0x2A)] ∧ (load [0x60, 0x2A] base).2 = .ok := by decide
theorem test_load_limits (bs : List Byte) :
    (bs.length = 3583 → (load bs base).2 = .ok) ∧ (bs.length = 3584 → (load bs base).2 = .romTooLarge) := by
  constructor <;> intro h <;> simp [load, memSize, progBase, h]

/-- Reset keeps the `LEGACY_SHIFT` level and clears `HALTED` (R340, R341). -/
theorem test_reset_op :
    (resetBy { base with halted := true, legacyShift := true, pc := 0xFFF }).halted = false ∧
    (resetBy { base with halted := true, legacyShift := true, pc := 0xFFF }).legacyShift = true ∧
    (resetBy { base with halted := true, legacyShift := true, pc := 0xFFF }).pc = 0x200 := by decide

/-! ## Witnesses: the hypotheses of each statement can be met, each clause at a boundary -/

theorem base_inv : Inv base :=
  ⟨rfl, by decide, by decide, by decide, by decide, by decide⟩

/-- A state on which every step-level hypothesis can be met, with a word at the last address an instruction can start at. -/
def lastWord (w : Nat) : State := ({ base with pc := 0xFFD } : State).withFetchWord 16 w

theorem test_witness_EncodeOfDecode : decode 0x6A3C = .ok (.loadImm 0xA 0x3C) := by decide

theorem test_witness_OpcodeRowsAreDisjoint :
    (⟨0xF00F, 0x8004⟩ : Row) ∈ opcodeMap ∧ (⟨0xF00F, 0x8004⟩ : Row).selects 0x8124 = true := by decide

theorem test_witness_StepRunsDecodedInstruction :
    (lastWord 0x6A42).halted = false ∧ (lastWord 0x6A42).pc.toNat ≤ 0xFFD ∧ decode (wordAtPc (lastWord 0x6A42)) = .ok (.loadImm 0xA 0x42) := by decide

theorem test_witness_UnassignedWordOnlyReports :
    (lastWord 0x5121).halted = false ∧ (lastWord 0x5121).pc.toNat ≤ 0xFFD ∧ ∀ r ∈ opcodeMap, r.selects (wordAtPc (lastWord 0x5121)) = false := by decide

theorem test_witness_FetchOutsideMemoryFaults :
    base.halted = false ∧ 0xFFF ≤ ({ base with pc := 0xFFF } : State).pc.toNat ∧ ({ base with pc := 0xFFE } : State).pc = 0xFFE := by decide

theorem test_witness_HaltedClockOnlyReports : ({ base with halted := true } : State).halted = true := rfl

/-- Also for `FatalFaultsArePrecise`, `StatusOfAStep` and `OnlyTheseInstructionsFault`: a step that ends halted. -/
theorem test_witness_faulting_step :
    (lastWord 0x00EE).halted = false ∧ (lastWord 0x00EE).pc.toNat ≤ 0xFFD ∧ step (lastWord 0x00EE) = .next ((lastWord 0x00EE).latchFault .stackUnderflow) ∧
    ((lastWord 0x00EE).latchFault .stackUnderflow).halted = true := ⟨rfl, by decide, rfl, rfl⟩

/-- Each row of the fault table of R302 is reached. -/
theorem test_witness_OnlyTheseInstructionsFault :
    (after 0x2300 { base with sp := 16 }).fault = .stackOverflow ∧ (after 0x00EE base).fault = .stackUnderflow ∧
    (after 0xD011 (base.setIndex 0xFFF)).fault = .invalidAddress 0xFFF ∧ (after 0xF033 (base.setIndex 0xFFD)).fault = .invalidAddress 0xFFF ∧
    (after 0xF055 (base.setIndex 0xFFF)).fault = .invalidAddress 0xFFF ∧ (after 0xF065 (base.setIndex 0xFFF)).fault = .invalidAddress 0xFFF ∧
    (after 0xF01E (base.setIndex 0xFFF)).fault = .invalidAddress 0xFFF := by decide

/-- `FaultFreeConditionsAreExact`: both sides at their boundaries. -/
theorem test_witness_FaultFreeConditionsAreExact :
    (base.halted = false ∧ FaultFree (.call 0x300) { base with sp := 15 } ∧ ¬ FaultFree (.call 0x300) { base with sp := 16 } ∧
      FaultFree .ret { base with sp := 1 } ∧ ¬ FaultFree .ret base) ∧
    (FaultFree (.draw 0 1 0) (base.setIndex 0xFFF) ∧ FaultFree (.draw 0 1 3) (base.setIndex 0xFFC) ∧ ¬ FaultFree (.draw 0 1 4) (base.setIndex 0xFFC) ∧
      FaultFree (.storeBcd 0) (base.setIndex 0xFFC) ∧ ¬ FaultFree (.storeBcd 0) (base.setIndex 0xFFD)) ∧
    (FaultFree (.storeRegsToMem 1) (base.setIndex 0xFFD) ∧ ¬ FaultFree (.loadRegsFromMem 1) (base.setIndex 0xFFE) ∧
      FaultFree (.addIndexFromReg 0) (base.setIndex 0xFFE) ∧ ¬ FaultFree (.addIndexFromReg 0) (base.setIndex 0xFFF)) := by
  simp only [FaultFree]
  decide

theorem test_witness_StepKeepsInvariant : Inv base ∧ step base = .next { base with pc := 0x202, status := .invalidOpcode 0 } := ⟨base_inv, rfl⟩

theorem test_witness_HostSchedulesKeepInvariant : Inv base := base_inv

/-- Also for `InstructionsWriteOnlyTheirState`: an instruction that is no shift and answers a next state. -/
theorem test_witness_OnlyShiftsReadLegacyShift :
    (∀ x y, Instr.loadImm 3 7 ≠ .shiftRight x y) ∧ (∀ x y, Instr.loadImm 3 7 ≠ .shiftLeft x y) ∧
    exec (.loadImm 3 7) base = .next (((base.setReg 3 7).setPc 0x202).setStatus .ok) :=
  ⟨fun _ _ => by simp, fun _ _ => by simp, rfl⟩

/-- Also for `FlagIsWrittenByExactlySix`: a flag writer whose destination is not `VF`, and an instruction that writes no flag. -/
theorem test_witness_OnlyDestinationRegistersChange :
    exec (.addCarry 1 2) base = .next (((base.setFlagAndReg false 1 0).setPc 0x202).setStatus .ok) ∧ writesFlag (.addCarry 1 2) = true ∧
    (15 : Reg) ∉ destinations (.addCarry 1 2) ∧ writesFlag (.loadImm 3 7) = false ∧ (15 : Reg) ∉ destinations (.loadImm 3 7) ∧
    (15 : Reg) ∉ destinations (.loadRegsFromMem 14) := ⟨rfl, by decide, by decide, by decide, by decide, by decide⟩

theorem test_witness_ClockLeavesHostOwnedState :
    ({ base with drawn := true } : State).drawn = true ∧ (after 0xF015 (base.setReg 0 3)).dt ≠ base.dt ∧
    (after 0xF018 (base.setReg 0 3)).st ≠ base.st := by decide

theorem test_witness_ReturnPopsTheStack : ({ base with sp := 16 } : State).sp.val = (15 : Fin 16).val + 1 ∧ base.sp.val = 0 := by decide

theorem test_witness_JumpSetsThePc : (0xFFF : BitVec 12) = 0xFFF ∧ base.halted = false := by decide

theorem test_witness_CallPushesItsAddress : ({ base with sp := 15 } : State).sp.val = (15 : Fin 16).val ∧ ({ base with sp := 16 } : State).sp.val = 16 := by decide

/-- R145's corner: the taken skip at 0xFFD, and the clock after it. -/
theorem test_witness_ImmediateSkips :
    let s := { base.setReg 1 0x42 with pc := 0xFFD }
    s.reg 1 = 0x42 ∧ s.pc = 0xFFD ∧ s.halted = false := by decide

theorem test_witness_RegisterSkips : (15 : Fin 16) ≠ 0 := by decide

/-- The state after a `call` at depth 0 itself meets the hypotheses on the subroutine's end. -/
theorem test_witness_BalancedCallAndReturn :
    base.sp.val = (0 : Fin 16).val ∧ ∃ t, exec (.call 0x300) base = .next t ∧ t.sp = t.sp ∧ t.stack[(0 : Fin 16)] = t.stack[(0 : Fin 16)] :=
  ⟨rfl, _, rfl, rfl, rfl⟩

theorem test_witness_AddCarrySumAndFlag : (1 : Reg) ≠ 15 ∧ (2 : Reg) ≠ 1 ∧ (2 : Reg) ≠ 15 := by decide

theorem test_witness_ShiftsOfTheSelectedSource :
    let s := { base.setReg 2 0x81 with legacyShift := true }
    (0x81 : Byte) = (if s.legacyShift = true then s.reg 2 else s.reg 1) ∧ (0 : Byte) = (if base.legacyShift = true then base.reg 2 else base.reg 1) := by
  decide

theorem test_witness_AddThenSubtractRestores :
    (1 : Reg) ≠ 2 ∧ (1 : Reg) ≠ 15 ∧ (2 : Reg) ≠ 15 ∧ ∃ t, exec (.addCarry 1 2) base = .next t := ⟨by decide, by decide, by decide, _, rfl⟩

theorem test_witness_AddIndexIsChecked :
    (base.setIndex 0xFFE).index.toNat + ((base.setIndex 0xFFE).reg 0).toNat ≤ 0xFFE ∧
    0xFFF ≤ (base.setIndex 0xFFF).index.toNat + ((base.setIndex 0xFFF).reg 0).toNat ∧ (base.setIndex 0xFFF).index.toNat ≤ 0xFFF := by decide

/-- A lit pixel under a sprite bit, a dark one beside it, and both kinds of sprite that lie in memory. -/
theorem test_witness_DrawInvertsTheSpritePixels :
    let s := { base with mem := memWith 0xFFE [0x80], index := 0xFFE, fb := base.fb.set 0 0x80 }
    s.index.toNat + (1 : Fin 16).val - 1 ≤ 0xFFE ∧ (0 : Fin 16).val = 0 ∧
      (Inverts s (s.reg 0) (s.reg 1) 1 0 0 ∧ pixel s.fb 0 0 = true) ∧ pixel s.fb 0 1 = false ∧ (5 : Reg) ≠ 15 :=
  ⟨by decide, by decide, ⟨⟨0, 0, by decide, by decide, by decide, by decide, by decide⟩, by decide⟩, by decide, by decide⟩

theorem test_witness_DrawFaultsBeforeDrawing :
    0 < (4 : Fin 16).val ∧ 0xFFE < (base.setIndex 0xFFC).index.toNat + (4 : Fin 16).val - 1 ∧
    0xFFE < (base.setIndex 0xFFFF).index.toNat + (4 : Fin 16).val - 1 := by decide

theorem test_witness_DrawTwiceRestoresTheScreen :
    let s := { base with mem := memWith 0x300 [0x80], index := 0x300 }
    (0 : Reg) ≠ 15 ∧ (1 : Reg) ≠ 15 ∧ s.index.toNat + (1 : Fin 16).val - 1 ≤ 0xFFE ∧ (∃ t, exec (.draw 0 1 1) s = .next t) ∧
      (∀ k : Fin 256, s.fb[k] = 0) ∧ ∃ i, i < (1 : Fin 16).val ∧ s.mem.read (s.index.toNat + i) ≠ 0 :=
  ⟨by decide, by decide, by decide, ⟨_, rfl⟩, fun k => by simp [base, State.reset], 0, by decide, by decide⟩

theorem test_witness_WaitKeyTakesTheLeastKey :
    let s := { base with key := 0x8000 }
    s.key.getLsbD (15 : Fin 16).val = true ∧ (∀ j : Fin 16, j < 15 → s.key.getLsbD j.val = false) ∧ base.key = 0 := by decide

theorem test_witness_OnlyStoreDelayReadsATimer :
    exec (.loadImm 3 7) base = .next (((base.setReg 3 7).setPc 0x202).setStatus .ok) ∧ (∀ x, Instr.loadImm 3 7 ≠ .setSound x) ∧
    (∀ x, Instr.loadImm 3 7 ≠ .setDelay x) ∧ (∀ x, Instr.loadImm 3 7 ≠ .storeDelay x) ∧
    (∃ t, exec (.setSound 0) base = .next t) ∧ ∃ t, exec (.setDelay 0) base = .next t :=
  ⟨rfl, fun _ => by simp, fun _ => by simp, fun _ => by simp, ⟨_, rfl⟩, _, rfl⟩

/-- `V0`, `V1` stored over the word after the store, at the highest address where one can follow. -/
theorem test_witness_NextFetchSeesTheStore :
    let s := { (base.setReg 0 0x6A).setReg 1 0x42 with pc := 0xFFB, index := 0xFFD }
    s.mem.wf = true ∧ s.pc.toNat ≤ 0xFFB ∧ s.index.toNat + (1 : Reg).val ≤ 0xFFE ∧ (1 : Reg).val = (0 : Reg).val + 1 ∧
      dataAddr s (0 : Reg).val = s.pc.toNat + 2 ∧ (∃ t, exec (.storeRegsToMem 1) s = .next t ∧ t.halted = false) ∧
      decode (wordOfBytes (s.reg 0) (s.reg 1)) = .ok (.loadImm 0xA 0x42) :=
  ⟨rfl, by decide, by decide, by decide, by decide, ⟨_, rfl, rfl⟩, by decide⟩

/-- Also for `BlockLoad`: the last address that fits and the first that does not. -/
theorem test_witness_BlockStore :
    (base.setIndex 0xFEF).index.toNat + (15 : Reg).val ≤ 0xFFE ∧ base.mem.wf = true ∧ (15 : Reg) ≤ 15 ∧
    0xFFF ≤ (base.setIndex 0xFF0).index.toNat + (15 : Reg).val := by decide

theorem test_witness_BcdStore :
    (base.setIndex 0xFFC).index.toNat ≤ 0xFFC ∧ base.mem.wf = true ∧ 0xFFD ≤ (base.setIndex 0xFFD).index.toNat := by decide

/-- The state after the store itself meets the hypotheses on the loading state. -/
theorem test_witness_BlockStoreThenLoad :
    base.mem.wf = true ∧ base.index.toNat + (3 : Reg).val ≤ 0xFFE ∧ ∃ t, exec (.storeRegsToMem 3) base = .next t ∧ t.index = base.index :=
  ⟨rfl, by decide, _, rfl, rfl⟩

theorem test_witness_HostLoad :
    (∃ bs : List Byte, bs.length = 3583) ∧ (∃ bs : List Byte, bs.length = 3584) ∧ base.mem.wf = true :=
  ⟨⟨List.replicate 3583 0x11, List.length_replicate⟩, ⟨List.replicate 3584 0x11, List.length_replicate⟩, rfl⟩

theorem test_witness_TickCountsDown : (acknowledgeDraw base).ack = true ∧ base.ack = false := by decide

theorem test_witness_DrawnStaysUntilAcknowledged :
    HostOp.acknowledgeDraw ∉ [HostOp.tick, .clock] ∧ HostOp.reset ∉ [HostOp.tick, .clock] ∧ (after 0x00E0 base).drawn = true ∧
    (after 0x00E0 base).ack = false := by decide

theorem test_witness_OnlyResetLeavesHalted : HostOp.reset ∉ [HostOp.tick, .clock] ∧ (after 0x00EE base).halted = true := by decide

/-- R16's example: `0x1200` at 0x200 ends the run; a jump elsewhere, an unassigned word and a fetch outside memory do not; a fault does, as a fault. -/
theorem test_run_end :
    runPhase (base.withFetchWord 16 0x1200) = .finished ∧ runPhase (base.withFetchWord 16 0x1202) = .running ∧ runPhase base = .running ∧
    runPhase { base with pc := 0xFFF } = .running ∧ runPhase (after 0x00EE base) = .faulted := by decide

/-- Both ended phases, the finished one at the last address an instruction can start at. -/
theorem test_witness_EndedRunStaysEnded :
    runPhase (lastWord 0x1FFD) = .finished ∧ runPhase (after 0x00EE base) = .faulted ∧ HostOp.reset ∉ [HostOp.clock, .tick, .setKey 3 true] ∧
    ∀ bytes, HostOp.load bytes ∉ [HostOp.clock, .tick, .setKey 3 true] := ⟨by decide, by decide, by decide, fun _ => by simp⟩

theorem test_witness_FinishedMeansAtASelfJump :
    (lastWord 0x1FFD).halted = false ∧ (lastWord 0x1FFD).pc.toNat ≤ 0xFFD ∧ decode (wordAtPc (lastWord 0x1FFD)) = .ok (.jump 0xFFD) ∧
    (0xFFD : BitVec 12).toNat = (lastWord 0x1FFD).pc.toNat := by decide

theorem test_witness_ResetValues : State.reset = State.reset ∧ (operate .reset base).1 = (operate .reset base).1 := ⟨rfl, rfl⟩

end Sys2Proof.Tests
end

/-! The decoder against the opcode map (30_encoding.md R91 to R98): the fields as numbers, what each mask of the map looks at, the dispatch group by
group, and the clock on an unassigned word. -/

namespace Sys2Proof

open Sys2Proof.Machine Sys2Proof.Laws

/-! ### The fields of a word as numbers (R92) -/

@[simp] theorem fieldsOf_code (w : Word) : (fieldsOf w).code = w := rfl

theorem toNat_slice (w : Word) (start len : Nat) : (w.extractLsb' start len).toNat = w.toNat / 2 ^ start % 2 ^ len := by
  rw [BitVec.extractLsb'_toNat, Nat.shiftRight_eq_div_pow]

theorem toNat_low_slice (w : Word) (len : Nat) : (w.extractLsb' 0 len).toNat = w.toNat % 2 ^ len := by
  rw [toNat_slice, Nat.pow_zero, Nat.div_one]

theorem toNat_fieldsOf_op (w : Word) : (fieldsOf w).op.toNat = w.toNat / 0x1000 :=
  (toNat_slice w 12 4).trans (Nat.mod_eq_of_lt (Nat.div_lt_of_lt_mul w.isLt))

theorem toNat_fieldsOf_x (w : Word) : (fieldsOf w).x.toNat = w.toNat / 0x100 % 0x10 := toNat_slice w 8 4

theorem toNat_fieldsOf_y (w : Word) : (fieldsOf w).y.toNat = w.toNat / 0x10 % 0x10 := toNat_slice w 4 4

theorem toNat_fieldsOf_n (w : Word) : (fieldsOf w).n.toNat = w.toNat % 0x10 := toNat_low_slice w 4

theorem toNat_fieldsOf_nn (w : Word) : (fieldsOf w).nn.toNat = w.toNat % 0x100 := toNat_low_slice w 8

theorem toNat_fieldsOf_nnn (w : Word) : (fieldsOf w).nnn.toNat = w.toNat % 0x1000 := toNat_low_slice w 12

/-! ### Every word in each of the formats (R93) -/

/-- A word is its fields `op` and `nnn`. -/
@[simp] theorem formatNNN_fieldsOf (w : Word) : formatNNN (fieldsOf w).op (fieldsOf w).nnn = w := by
  apply BitVec.eq_of_toNat_eq
  rw [toNat_formatNNN, toNat_fieldsOf_op, toNat_fieldsOf_nnn]
  omega

/-- A word is its fields `op`, `x` and `nn`. -/
@[simp] theorem formatXNN_fieldsOf (w : Word) : formatXNN (fieldsOf w).op (regOf (fieldsOf w).x) (fieldsOf w).nn = w := by
  have hx : (regOf (fieldsOf w).x).val = w.toNat / 0x100 % 0x10 := toNat_fieldsOf_x w
  apply BitVec.eq_of_toNat_eq
  rw [toNat_formatXNN, hx, toNat_fieldsOf_op, toNat_fieldsOf_nn]
  omega

/-- A word is its fields `op`, `x`, `y` and `n`. -/
@[simp] theorem formatXYN_fieldsOf (w : Word) :
    formatXYN (fieldsOf w).op (regOf (fieldsOf w).x) (regOf (fieldsOf w).y) (fieldsOf w).n = w := by
  have hx : (regOf (fieldsOf w).x).val = w.toNat / 0x100 % 0x10 := toNat_fieldsOf_x w
  have hy : (regOf (fieldsOf w).y).val = w.toNat / 0x10 % 0x10 := toNat_fieldsOf_y w
  apply BitVec.eq_of_toNat_eq
  rw [toNat_formatXYN, hx, hy, toNat_fieldsOf_op, toNat_fieldsOf_n]
  omega

/-! ### What a row of the opcode map asks of the fields (R95, R96) -/

/-- A row that masks to the top nibble and to the field `low` below it looks at exactly these two. -/
theorem selects_iff_of_toNat_masked {mask p w : Word} {op low : Nat} (hmasked : (w &&& mask).toNat = op * 0x1000 + low)
    (hlow : low < 0x1000) :
    (Row.mk mask p).selects w = true ↔ op = p.toNat / 0x1000 ∧ low = p.toNat % 0x1000 := by
  rw [Row.selects, beq_iff_eq, ← BitVec.toNat_inj, hmasked]
  dsimp only
  omega

/-- Mask 0xF000 looks at `op`. -/
theorem selects_top (p w : Word) :
    (Row.mk 0xF000#16 p).selects w = true ↔ (fieldsOf w).op.toNat = p.toNat / 0x1000 ∧ 0 = p.toNat % 0x1000 := by
  have hmask : w &&& 0xF000#16 = formatNNN (fieldsOf w).op 0#12 :=
    (congrArg (· &&& 0xF000#16) (formatNNN_fieldsOf w).symm).trans (EncodingRow.mask_top _ _)
  exact selects_iff_of_toNat_masked (hmask ▸ toNat_formatNNN _ _) (by decide)

/-- Mask 0xF00F looks at `op` and `n`. -/
theorem selects_nibble (p w : Word) :
    (Row.mk 0xF00F#16 p).selects w = true ↔
      (fieldsOf w).op.toNat = p.toNat / 0x1000 ∧ (fieldsOf w).n.toNat = p.toNat % 0x1000 := by
  have hmask : w &&& 0xF00F#16 = formatXYN (fieldsOf w).op 0 0 (fieldsOf w).n :=
    (congrArg (· &&& 0xF00F#16) (formatXYN_fieldsOf w).symm).trans (EncodingRow.mask_nibble _ _ _ _)
  exact selects_iff_of_toNat_masked (by rw [hmask, toNat_formatXYN]; simp) (Nat.lt_trans (fieldsOf w).n.isLt (by decide))

/-- Mask 0xF0FF looks at `op` and `nn`. -/
theorem selects_byte (p w : Word) :
    (Row.mk 0xF0FF#16 p).selects w = true ↔
      (fieldsOf w).op.toNat = p.toNat / 0x1000 ∧ (fieldsOf w).nn.toNat = p.toNat % 0x1000 := by
  have hmask : w &&& 0xF0FF#16 = formatXNN (fieldsOf w).op 0 (fieldsOf w).nn :=
    (congrArg (· &&& 0xF0FF#16) (formatXNN_fieldsOf w).symm).trans (EncodingRow.mask_byte _ _ _)
  exact selects_iff_of_toNat_masked (by rw [hmask, toNat_formatXNN]; simp) (Nat.lt_trans (fieldsOf w).nn.isLt (by decide))

/-- Mask 0xFFFF looks at the whole word. -/
theorem selects_word (p w : Word) :
    (Row.mk 0xFFFF#16 p).selects w = true ↔
      (fieldsOf w).op.toNat = p.toNat / 0x1000 ∧ (fieldsOf w).nnn.toNat = p.toNat % 0x1000 := by
  have hmask : w &&& 0xFFFF#16 = formatNNN (fieldsOf w).op (fieldsOf w).nnn :=
    BitVec.and_allOnes.trans (formatNNN_fieldsOf w).symm
  exact selects_iff_of_toNat_masked (hmask ▸ toNat_formatNNN _ _) (fieldsOf w).nnn.isLt

/-- The words the map assigns, group by group: what a top nibble asks of the trailing nibble, byte or 12 bits (R95). -/
def Fields.Assigned (f : Fields) : Prop :=
  f.op.toNat ∈ [0x1, 0x2, 0x3, 0x4, 0x6, 0x7, 0xA, 0xB, 0xC, 0xD] ∨
  (f.op.toNat = 0x0 ∧ f.nnn.toNat ∈ [0x0E0, 0x0EE]) ∨
  (f.op.toNat ∈ [0x5, 0x9] ∧ f.n.toNat = 0x0) ∨
  (f.op.toNat = 0x8 ∧ f.n.toNat ∈ [0x0, 0x1, 0x2, 0x3, 0x4, 0x5, 0x6, 0x7, 0xE]) ∨
  (f.op.toNat = 0xE ∧ f.nn.toNat ∈ [0x9E, 0xA1]) ∨
  (f.op.toNat = 0xF ∧ f.nn.toNat ∈ [0x07, 0x0A, 0x15, 0x18, 0x1E, 0x29, 0x33, 0x55, 0x65])

theorem rowOf_mem_opcodeMap (i : Instr) : rowOf i ∈ opcodeMap := by
  cases i <;> exact of_decide_eq_true rfl

/-- A word that some row of the map selects is assigned: each row's pattern spells the field values that its group lists. -/
theorem assigned_of_selects (w : Word) : ∀ r ∈ opcodeMap, r.selects w = true → (fieldsOf w).Assigned := by
  simp +contextual [opcodeMap, selects_top, selects_nibble, selects_byte, selects_word, Fields.Assigned]

/-- What the dispatch may answer for a word: an instruction whose row selects the word, or the unassigned class when the map does not assign the word. -/
def FollowsMap (w : Word) : Except Rejected Instr → Prop
  | .ok i => (rowOf i).selects w = true
  | .error e => e = .unassigned w ∧ ¬ (fieldsOf w).Assigned

/-! ### The dispatch, group by group (R95) -/

section Groups

variable {w : Word}

theorem dispatch0_followsMap (hop : (fieldsOf w).op.toNat = 0x0) : FollowsMap w (dispatch0 (fieldsOf w)) := by
  unfold dispatch0
  split
  iterate 2
    next hnnn => simp [FollowsMap, rowOf, selects_word, hop, hnnn]
  next => simp_all [FollowsMap, Fields.Assigned]

theorem dispatch5_followsMap (hop : (fieldsOf w).op.toNat = 0x5) : FollowsMap w (dispatch5 (fieldsOf w)) := by
  unfold dispatch5
  split
  next hn => simp [FollowsMap, rowOf, selects_nibble, hop, hn]
  next => simp_all [FollowsMap, Fields.Assigned]

theorem dispatch8_followsMap (hop : (fieldsOf w).op.toNat = 0x8) : FollowsMap w (dispatch8 (fieldsOf w)) := by
  unfold dispatch8
  split
  iterate 9
    next hn => simp [FollowsMap, rowOf, selects_nibble, hop, hn]
  next => simp_all [FollowsMap, Fields.Assigned]

theorem dispatch9_followsMap (hop : (fieldsOf w).op.toNat = 0x9) : FollowsMap w (dispatch9 (fieldsOf w)) := by
  unfold dispatch9
  split
  next hn => simp [FollowsMap, rowOf, selects_nibble, hop, hn]
  next => simp_all [FollowsMap, Fields.Assigned]

theorem dispatchE_followsMap (hop : (fieldsOf w).op.toNat = 0xE) : FollowsMap w (dispatchE (fieldsOf w)) := by
  unfold dispatchE
  split
  iterate 2
    next hnn => simp [FollowsMap, rowOf, selects_byte, hop, hnn]
  next => simp_all [FollowsMap, Fields.Assigned]

theorem dispatchF_followsMap (hop : (fieldsOf w).op.toNat = 0xF) : FollowsMap w (dispatchF (fieldsOf w)) := by
  unfold dispatchF
  split
  iterate 9
    next hnn => simp [FollowsMap, rowOf, selects_byte, hop, hnn]
  next => simp_all [FollowsMap, Fields.Assigned]

end Groups

/-- Groups without a refinement have one row each; the other groups answer as their own lemmas say. -/
theorem decode_followsMap (w : Word) : FollowsMap w (decode w) := by
  unfold decode dispatch
  split
  next hop => exact dispatch0_followsMap hop
  iterate 4
    next hop => simp [FollowsMap, rowOf, selects_top, hop]
  next hop => exact dispatch5_followsMap hop
  iterate 2
    next hop => simp [FollowsMap, rowOf, selects_top, hop]
  next hop => exact dispatch8_followsMap hop
  next hop => exact dispatch9_followsMap hop
  iterate 4
    next hop => simp [FollowsMap, rowOf, selects_top, hop]
  next hop => exact dispatchE_followsMap hop
  next =>
    have hlt := (fieldsOf w).op.isLt
    simp only [imp_false] at *
    have hop : (fieldsOf w).op.toNat = 0xF := by omega
    exact dispatchF_followsMap hop

/-- A word that decodes to an instruction selects that instruction's row. -/
theorem selects_of_decode {w : Word} {i : Instr} (h : decode w = .ok i) : (rowOf i).selects w = true := by
  simpa [h, FollowsMap] using decode_followsMap w

/-- Only words that no row selects decode to no instruction, and then the class is the unassigned one (R98). -/
theorem unassigned_of_decode_eq_error {w : Word} {e : Rejected} (h : decode w = .error e) :
    e = .unassigned w ∧ ∀ r ∈ opcodeMap, r.selects w = false := by
  obtain ⟨he, hnot⟩ : e = .unassigned w ∧ ¬ (fieldsOf w).Assigned := by simpa [h, FollowsMap] using decode_followsMap w
  exact ⟨he, fun r hr => Bool.eq_false_iff.mpr fun hsel => hnot (assigned_of_selects w r hr hsel)⟩

/-- A word that no row selects has no instruction to decode to: that instruction's row would select it. -/
theorem decode_eq_unassigned_of_no_row {w : Word} (h : ∀ r ∈ opcodeMap, r.selects w = false) : decode w = .error (.unassigned w) := by
  cases hd : decode w with
  | ok i => exact absurd (selects_of_decode hd) (by simp [h _ (rowOf_mem_opcodeMap i)])
  | error e => rw [(unassigned_of_decode_eq_error hd).1]

/-- Settles O3: the fields are read off as numbers, and either answer of the decoder follows the map. -/
theorem decodingIsTotalByTheMap : Obligations.DecodingIsTotalByTheMap := by
  intro w
  refine ⟨⟨rfl, toNat_fieldsOf_op w, toNat_fieldsOf_x w, toNat_fieldsOf_y w, toNat_fieldsOf_n w, toNat_fieldsOf_nn w,
    toNat_fieldsOf_nnn w, fieldsOf_wellFormed w⟩, ?_⟩
  cases hd : decode w with
  | ok i => exact .inl ⟨i, rfl, rowOf_mem_opcodeMap i, selects_of_decode hd⟩
  | error e =>
    obtain ⟨rfl, hrows⟩ := unassigned_of_decode_eq_error hd
    exact .inr ⟨rfl, hrows⟩

/-! ### The clock outside the halted state (R120, R98) -/

theorem fetch_eq_wordAtPc {s : State} (hpc : s.pc.toNat ≤ 0xFFD) : fetch s = .ok (wordAtPc s) :=
  fetch_eq_ok.mpr ⟨by unfold memSize; omega, rfl⟩

/-- A clock on a word that decodes to no instruction only reports the word (R98). -/
theorem step_of_decode_eq_error {s : State} {e : Rejected} (hrun : s.halted = false) (hpc : s.pc.toNat ≤ 0xFFD)
    (hd : decode (wordAtPc s) = .error e) : step s = reportInvalidOpcode (wordAtPc s) s := by
  simp [step, hrun, fetch_eq_wordAtPc hpc, hd]

/-- The frame of a step that moves `PC` and answers a status. -/
theorem unchangedExcept_setPc_setStatus (s : State) (a : Addr) (r : StepStatus) :
    UnchangedExcept [.pc, .status] s ((s.setPc a).setStatus r) := by
  intro p hp
  cases p <;> simp_all [Part.same]

/-- Settles O7: no row selects the word, so it decodes to the unassigned class, and the clock only reports it. -/
theorem unassignedWordOnlyReports : Obligations.UnassignedWordOnlyReports := by
  intro s hrun hpc hrows
  exact ⟨_, step_of_decode_eq_error hrun hpc (decode_eq_unassigned_of_no_row hrows), rfl, rfl, unchangedExcept_setPc_setStatus _ _ _⟩

end Sys2Proof

/-! How an instruction ends (40_step_cycle.md R127, R128; 60_exceptions.md R304): it completes with status `Ok`, or a fatal fault is taken from the state
before the step. From it the status of a clock. -/

namespace Sys2Proof

open Sys2Proof.Machine

/-- `t` is how an instruction may leave `s`: completed, with `HALTED` as before and status `Ok` (R128), or the state a fatal fault leaves (R304). -/
def CompletesOrFaults (s t : State) : Prop :=
  (t.halted = s.halted ∧ t.status = .ok) ∨ ∃ c, t = s.latchFault c

section Endings

variable {s u t : State}

/-- The default advance completes the instruction whose effects lead to `u`. -/
theorem completesOrFaults_of_advance (h : advance u = .next t) (hu : u.halted = s.halted) : CompletesOrFaults s t := by
  obtain rfl := advance_eq_next.mp h
  exact .inl ⟨hu, rfl⟩

theorem completesOrFaults_of_transfer {a : Addr} (h : transfer a s = .next t) : CompletesOrFaults s t := by
  obtain rfl := transfer_eq_next.mp h
  exact .inl ⟨rfl, rfl⟩

theorem completesOrFaults_of_skipIf {c : Bool} (h : skipIf c s = .next t) : CompletesOrFaults s t := by
  obtain rfl := skipIf_eq_next.mp h
  exact .inl ⟨rfl, rfl⟩

/-- The shape of an instruction that checks addresses: inside the memory it completes, outside it faults (R68). -/
theorem completesOrFaults_of_guard {inside outside : Prop} {c : FaultCause}
    (h : (inside ∧ t = u.setStatus .ok) ∨ (outside ∧ t = s.latchFault c)) (hu : u.halted = s.halted) : CompletesOrFaults s t := by
  obtain ⟨_, rfl⟩ | ⟨_, rfl⟩ := h
  · exact .inl ⟨hu, rfl⟩
  · exact .inr ⟨c, rfl⟩

/-- Each instruction is one advance, transfer or skip, or branches between such an end and a fatal fault. -/
theorem exec_completesOrFaults {i : Instr} (h : exec i s = .next t) : CompletesOrFaults s t := by
  cases i
  case clear | loadImm | addImm | copy | or | and | xor | addCarry | subBorrow | shiftRight | subBorrowRev | shiftLeft | loadIndex
      | random | storeDelay | setDelay | setSound | fontAddress =>
    exact completesOrFaults_of_advance h rfl
  case jump | jump0 => exact completesOrFaults_of_transfer h
  case skipEqImm | skipNeImm | skipEqReg | skipNeReg | skipIfPressed | skipIfNotPressed => exact completesOrFaults_of_skipIf h
  case ret =>
    obtain ⟨_, rfl⟩ | ⟨_, rfl⟩ := execReturn_eq_next.mp h
    · exact .inl ⟨rfl, rfl⟩
    · exact .inr ⟨_, rfl⟩
  case call =>
    obtain ⟨_, rfl⟩ | ⟨_, rfl⟩ := execCall_eq_next.mp h
    · exact .inl ⟨rfl, rfl⟩
    · exact .inr ⟨_, rfl⟩
  case draw =>
    obtain ⟨_, rfl⟩ | ⟨_, _, rfl⟩ := execDraw_eq_next.mp h
    · exact .inl ⟨rfl, rfl⟩
    · exact .inr ⟨_, rfl⟩
  case waitKey =>
    obtain ⟨_, _, rfl⟩ | ⟨_, rfl⟩ := execWaitKey_eq_next.mp h
    iterate 2 exact .inl ⟨rfl, rfl⟩
  case addIndexFromReg => exact completesOrFaults_of_guard (execAddIndexFromReg_eq_next.mp h) rfl
  case storeBcd => exact completesOrFaults_of_guard (execStoreBcd_eq_next.mp h) rfl
  case storeRegsToMem => exact completesOrFaults_of_guard (execStoreRegsToMem_eq_next.mp h) rfl
  case loadRegsFromMem => exact completesOrFaults_of_guard (execLoadRegsFromMem_eq_next.mp h) rfl

end Endings

/-- Whatever word the fetch answers is the word at `PC`. -/
theorem eq_wordAtPc_of_fetch_eq_ok {s : State} {w : Word} (h : fetch s = .ok w) : w = wordAtPc s := (fetch_eq_ok.mp h).2

/-- Settles O12: a clock faults at the fetch, runs the instruction at `PC`, which completes or faults, or reports the unassigned word. -/
theorem statusOfAStep : Obligations.StatusOfAStep := by
  intro s t hrun h
  obtain ⟨hhalted, _⟩ | ⟨_, _, hstep⟩ | ⟨_, _, w, hfetch, hword⟩ := step_cases s
  · exact absurd hhalted (by simp [hrun])
  · obtain rfl := raiseInvalidAddress_eq_next.mp (hstep.symm.trans h)
    exact .inl ⟨rfl, rfl⟩
  · obtain rfl := eq_wordAtPc_of_fetch_eq_ok hfetch
    obtain ⟨i, hi, hstep⟩ | ⟨e, he, hstep⟩ := hword
    · obtain ⟨hhalted, hok⟩ | ⟨c, rfl⟩ := exec_completesOrFaults (hstep.symm.trans h)
      · exact .inr (.inl ⟨hhalted.trans hrun, hok, i, hi⟩)
      · exact .inl ⟨rfl, rfl⟩
    · obtain ⟨rfl, _⟩ := unassigned_of_decode_eq_error he
      obtain rfl : _ = t := Host.Outcome.next.inj (hstep.symm.trans h)
      exact .inr (.inr ⟨hrun, rfl, he⟩)

end Sys2Proof

/-! Screen/control, jumps and calls, skips (41_screen_flow_skip.md): the words that mean an instruction, the frames of the three ways a step ends, the
fault of a fetch outside the memory, and the stack under `call` and `return`. -/

namespace Sys2Proof

open Sys2Proof.Machine

/-! ### The words of an instruction (R93, R96, R108) -/

/-- The dispatch reads an encoded instruction back: the fields of the word are the ones its format was given. -/
theorem decode_encode (i : Instr) : decode (encode i) = .ok i := by
  cases i
  case clear | ret => rfl
  case jump | call | loadIndex | jump0 => simp [decode, dispatch, encode, fieldsOf_formatNNN]
  case skipEqImm | skipNeImm | loadImm | addImm | random => simp [decode, dispatch, encode, fieldsOf_formatXNN]
  case skipEqReg => simp [decode, dispatch, dispatch5, encode, fieldsOf_formatXYN]
  case copy | or | and | xor | addCarry | subBorrow | shiftRight | subBorrowRev | shiftLeft =>
    simp [decode, dispatch, dispatch8, encode, fieldsOf_formatXYN]
  case skipNeReg => simp [decode, dispatch, dispatch9, encode, fieldsOf_formatXYN]
  case draw => simp [decode, dispatch, encode, fieldsOf_formatXYN]
  case skipIfPressed | skipIfNotPressed => simp [decode, dispatch, dispatchE, encode, fieldsOf_formatXNN]
  case storeDelay | waitKey | setDelay | setSound | addIndexFromReg | fontAddress | storeBcd | storeRegsToMem | loadRegsFromMem =>
    simp [decode, dispatch, dispatchF, encode, fieldsOf_formatXNN]

/-- The number of an instruction's encoding means that instruction. -/
theorem wordMeans_of_toNat_encode {n : Nat} {i : Instr} (h : (encode i).toNat = n) : WordMeans n i := by
  subst h
  exact ⟨(encode i).isLt, by rw [BitVec.ofNat_toNat, BitVec.setWidth_eq, decode_encode]⟩

theorem wordUnassigned_of_toNat_eq {n : Nat} {w : Word} (h : w.toNat = n) (hw : ¬ (fieldsOf w).Assigned) : WordUnassigned n := by
  subst h
  have hd : decode w = .error (.unassigned w) :=
    decode_eq_unassigned_of_no_row fun r hr => Bool.eq_false_iff.mpr fun hsel => hw (assigned_of_selects w r hr hsel)
  exact ⟨w.isLt, by rwa [BitVec.ofNat_toNat, BitVec.setWidth_eq]⟩

/-- In the groups 5 and 9 only the trailing nibble 0 is assigned (R95). -/
theorem not_assigned_of_nibble_ne_zero {f : Fields} (hop : f.op.toNat ∈ [0x5, 0x9]) (hn : f.n.toNat ≠ 0) : ¬ f.Assigned := by
  unfold Fields.Assigned
  simp only [List.mem_cons, List.not_mem_nil, or_false] at hop ⊢
  omega

/-- The words 5xyn and 9xyn with n not 0 have no instruction (R147, R148). -/
theorem wordUnassigned_formatXYN {op : BitVec 4} (hop : op.toNat ∈ [0x5, 0x9]) (x y : Reg) {n : Fin 16} (hn : n ≠ 0) :
    WordUnassigned (op.toNat * 0x1000 + x.val * 0x100 + y.val * 0x10 + n.val) := by
  obtain ⟨hfop, _, _, hfn⟩ := fieldsOf_formatXYN op x y (regField n)
  have hn' : (regField n).toNat ≠ 0 := fun h => hn (Fin.ext h)
  exact wordUnassigned_of_toNat_eq (toNat_formatXYN op x y (regField n))
    (not_assigned_of_nibble_ne_zero (hfop.symm ▸ hop) (hfn.symm ▸ hn'))

/-! ### The frames of the ways a step ends (R127, R128, R131, R304) -/

theorem Part.same_trans {p : Part} {s u t : State} (hsu : p.same s u) (hut : p.same u t) : p.same s t := by
  cases p
  case regs | mem => exact fun a => (hut a).trans (hsu a)
  all_goals exact Eq.trans hut hsu

section Frames

variable {s u : State} {ps : List Part}

theorem unchangedExcept_refl (s : State) : UnchangedExcept [] s s := by
  intro p _
  cases p
  case regs | mem => exact fun _ => rfl
  all_goals rfl

/-- What the effects before the end of a step leave unchanged, the end leaves unchanged too, but for `PC` and the status. -/
theorem UnchangedExcept.setPc_setStatus (h : UnchangedExcept ps s u) (a : Addr) (r : StepStatus) :
    UnchangedExcept (.pc :: .status :: ps) s ((u.setPc a).setStatus r) := fun p hp =>
  Part.same_trans (h p (by simp_all)) (unchangedExcept_setPc_setStatus u a r p (by simp_all))

theorem UnchangedExcept.transfersTo (h : UnchangedExcept ps s u) (a : Addr) : TransfersTo a ps s ((u.setPc a).setStatus .ok) :=
  ⟨rfl, rfl, h.setPc_setStatus a .ok⟩

theorem UnchangedExcept.completesWith (h : UnchangedExcept ps s u) (hpc : .pc ∉ ps) :
    CompletesWith ps s ((u.setPc (u.pc + 2)).setStatus .ok) :=
  ⟨congrArg (· + 2) (h .pc hpc), rfl, h.setPc_setStatus _ .ok⟩

theorem unchangedExcept_setScreen (fb : Screen) : UnchangedExcept [.fb, .drawn] s (s.setScreen fb) := by
  intro p hp
  cases p <;> simp_all [Part.same]

theorem unchangedExcept_setStack (stack : Vector Addr 16) (sp : Fin 17) : UnchangedExcept [.sp, .stack] s (s.setStack stack sp) := by
  intro p hp
  cases p <;> simp_all [Part.same]

/-- A pop moves `SP` only: the slots stay as they are (R141). -/
theorem unchangedExcept_setStack_self (sp : Fin 17) : UnchangedExcept [.sp] s (s.setStack s.stack sp) := by
  intro p hp
  cases p <;> simp_all [Part.same]

theorem abandonedWith_latchFault (c : FaultCause) (s : State) : AbandonedWith c s (s.latchFault c) := by
  refine ⟨rfl, rfl, rfl, fun p hp => ?_⟩
  cases p <;> simp_all [Part.same]

/-- A skip completes from every state, 4 above where its condition holds and 2 above where it does not (R131). -/
theorem exists_skipIf_transfersTo {c : Bool} {target : Addr} (htarget : (if c then s.pc + 4 else s.pc + 2) = target) :
    ∃ t, skipIf c s = .next t ∧ TransfersTo target [] s t :=
  ⟨_, skipIf_eq_next.mpr rfl, htarget ▸ (unchangedExcept_refl s).transfersTo _⟩

end Frames

/-- A clock whose fetch leaves the memory latches the first address outside it (R121). -/
theorem exists_step_abandonedWith_of_fetch_outside {s : State} (hrun : s.halted = false) (hpc : memSize < s.pc.toNat + 2) :
    ∃ t, step s = .next t ∧ AbandonedWith (.invalidAddress (BitVec.ofNat 16 (max s.pc.toNat memSize))) s t := by
  obtain ⟨hhalted, _⟩ | ⟨_, _, hstep⟩ | ⟨_, hinside, _⟩ := step_cases s
  · exact absurd hhalted (by simp [hrun])
  · exact ⟨_, hstep.trans (raiseInvalidAddress_eq_next.mpr rfl), abandonedWith_latchFault _ s⟩
  · omega

/-- Where `PC` itself is outside the memory, the latched address is `PC`. -/
theorem exists_step_abandonedWith_of_pc_outside {s : State} (hrun : s.halted = false) (hpc : memSize ≤ s.pc.toNat) :
    ∃ t, step s = .next t ∧ AbandonedWith (.invalidAddress s.pc) s t := by
  simpa [Nat.max_eq_left hpc] using exists_step_abandonedWith_of_fetch_outside hrun (by omega)

/-! ### The stack under `call` and `return` (R141, R143) -/

theorem addrOf_eq_ofNat (nnn : BitVec 12) : addrOf nnn = BitVec.ofNat 16 nnn.toNat :=
  BitVec.eq_of_toNat_eq (by simp [addrOf])

/-- `return` with `k + 1` occupied slots pops slot `k`. -/
theorem exec_ret_of_sp_eq {s : State} {k : Fin 16} (hsp : s.sp.val = k.val + 1) :
    exec .ret s = .next (((s.setStack s.stack k.castSucc).setPc (s.stack[k] + 2)).setStatus .ok) :=
  execReturn_eq_next.mpr (.inl ⟨by omega, by simp only [hsp]; rfl⟩)

/-- `call` with `k` occupied slots pushes its own address into slot `k`. -/
theorem exec_call_of_sp_eq {s : State} {k : Fin 16} (hsp : s.sp.val = k.val) (nnn : BitVec 12) :
    exec (.call nnn) s = .next (((s.setStack (s.stack.set k s.pc) k.succ).setPc (addrOf nnn)).setStatus .ok) :=
  execCall_eq_next.mpr (.inl ⟨by omega, by simp only [hsp]; rfl⟩)

theorem exec_ret_of_empty {s : State} (hsp : s.sp.val = 0) : exec .ret s = .next (s.latchFault .stackUnderflow) :=
  execReturn_eq_next.mpr (.inr ⟨hsp, rfl⟩)

theorem exec_call_of_full {s : State} (hsp : s.sp.val = 16) (nnn : BitVec 12) :
    exec (.call nnn) s = .next (s.latchFault .stackOverflow) :=
  execCall_eq_next.mpr (.inr ⟨hsp, rfl⟩)

/-- The `return` right after a `call` pops the address that the `call` pushed. -/
theorem exists_call_then_ret {s : State} {k : Fin 16} (hsp : s.sp.val = k.val) (nnn : BitVec 12) :
    ∃ t u, exec (.call nnn) s = .next t ∧ exec .ret t = .next u ∧ u.pc = s.pc + 2 ∧ u.sp = s.sp :=
  ⟨_, _, exec_call_of_sp_eq hsp nnn, exec_ret_of_sp_eq (k := k) rfl, by simp, Fin.ext hsp.symm⟩

/-! ### The obligations of the family -/

/-- Settles O23: `clear` is the default advance over the new screen. -/
theorem clearZeroesTheScreen : Obligations.ClearZeroesTheScreen :=
  ⟨wordMeans_of_toNat_encode rfl, fun _ =>
    ⟨_, rfl, (unchangedExcept_setScreen _).completesWith (by decide), fun _ => Vector.getElem_replicate _, rfl⟩⟩

/-- Settles O24: the slot popped names the address, an empty stack has none, and a `call` fills the slot that `return` pops. -/
theorem returnPopsTheStack : Obligations.ReturnPopsTheStack := by
  refine ⟨wordMeans_of_toNat_encode rfl, fun s => ⟨fun k hsp => ?_, fun hsp => ?_, fun nnn hsp => ?_⟩⟩
  · refine ⟨_, exec_ret_of_sp_eq hsp, (unchangedExcept_setStack_self _).transfersTo _, rfl, fun hslot => ?_⟩
    change (s.stack[k] + 2).toNat = s.stack[k].toNat + 2
    bv_omega
  · exact ⟨_, exec_ret_of_empty hsp, abandonedWith_latchFault _ s⟩
  · exact exists_call_then_ret (k := ⟨s.sp.val, by omega⟩) rfl nnn

/-- Settles O25: `jump` is one transfer; the target 0xFFF lies outside the memory, so the next fetch faults there. -/
theorem jumpSetsThePc : Obligations.JumpSetsThePc := by
  intro nnn s
  rw [← addrOf_eq_ofNat]
  refine ⟨wordMeans_of_toNat_encode (toNat_formatNNN 0x1 nnn), _, rfl, (unchangedExcept_refl s).transfersTo _, ?_⟩
  rintro rfl hrun
  exact exists_step_abandonedWith_of_pc_outside hrun (show memSize ≤ (addrOf 0xFFF).toNat by decide)

/-- Settles O26: below depth 16 the slot `SP` takes the address of the `call` and the others stay; at depth 16 nothing is pushed. -/
theorem callPushesItsAddress : Obligations.CallPushesItsAddress := by
  intro nnn s
  refine ⟨wordMeans_of_toNat_encode (toNat_formatNNN 0x2 nnn), fun k hsp => ?_, fun hsp => ?_⟩
  · rw [← addrOf_eq_ofNat]
    refine ⟨_, exec_call_of_sp_eq hsp nnn, (unchangedExcept_setStack _ _).transfersTo _, rfl, fun j => ?_⟩
    simp [Vector.getElem_set, Fin.ext_iff, eq_comm]
  · exact ⟨_, exec_call_of_full hsp nnn, abandonedWith_latchFault _ s⟩

/-- Settles O28: both are skips; a taken skip at 0xFFD leaves `PC` at 0x1001, outside the memory. -/
theorem immediateSkips : Obligations.ImmediateSkips := by
  intro x nn s
  refine ⟨wordMeans_of_toNat_encode (toNat_formatXNN 0x3 x nn), wordMeans_of_toNat_encode (toNat_formatXNN 0x4 x nn), ?_, ?_⟩
  · obtain ⟨t, ht, hto⟩ : ∃ t, exec (.skipEqImm x nn) s = .next t ∧ TransfersTo (if s.reg x = nn then s.pc + 4 else s.pc + 2) [] s t :=
      exists_skipIf_transfersTo (by simp only [decide_eq_true_eq])
    refine ⟨t, ht, hto, fun htaken hcorner hrun => ?_⟩
    have hpc : t.pc = 0x1001 := by simpa [htaken, hcorner] using hto.pc
    have hhalted : t.halted = false := (hto.frame .halted (by decide)).trans hrun
    exact hpc ▸ exists_step_abandonedWith_of_pc_outside hhalted (by simp [hpc, memSize])
  · exact exists_skipIf_transfersTo (by simp)

/-- Settles O29: both are skips, and a word of either group with a nonzero last nibble is not assigned. -/
theorem registerSkips : Obligations.RegisterSkips := by
  intro x y s
  refine ⟨wordMeans_of_toNat_encode (toNat_formatXYN 0x5 x y 0x0), wordMeans_of_toNat_encode (toNat_formatXYN 0x9 x y 0x0),
    fun n hn => ⟨wordUnassigned_formatXYN (op := 0x5) (by decide) x y hn, wordUnassigned_formatXYN (op := 0x9) (by decide) x y hn⟩, ?_, ?_⟩
  · exact exists_skipIf_transfersTo (by simp)
  · exact exists_skipIf_transfersTo (by simp)

end Sys2Proof

/-! Load, add and the register-register ALU (42_load_alu_shift.md R160 to R168): the words of group 8, and the two shapes of these instructions, each one
default advance: over one register write, and over the flag and then the result. -/

namespace Sys2Proof

open Sys2Proof.Machine

/-! ### The words of group 8 (R95, R96) -/

/-- The base of a group 8 word and its trailing nibble, added first, are the number that R96 writes. -/
theorem wordMeans_of_encode_eq_formatXYN {i : Instr} {x y : Reg} {n : BitVec 4} (h : encode i = formatXYN 0x8 x y n) :
    WordMeans (0x8000 + n.toNat + x.val * 0x100 + y.val * 0x10) i := by
  refine wordMeans_of_toNat_encode ?_
  simp only [h, toNat_formatXYN, BitVec.reduceToNat]
  omega

/-! ### The default advance over register writes (R23, R127) -/

theorem unchangedExcept_setReg (s : State) (x : Reg) (b : Byte) : UnchangedExcept [.regs] s (s.setReg x b) := by
  intro p hp
  cases p <;> simp_all [Part.same]

theorem unchangedExcept_setFlagAndReg (s : State) (flag : Bool) (x : Reg) (b : Byte) :
    UnchangedExcept [.regs] s (s.setFlagAndReg flag x b) := by
  intro p hp
  cases p <;> simp_all [Part.same]

theorem exists_advance_setReg (s : State) (x : Reg) (b : Byte) :
    ∃ t, advance (s.setReg x b) = .next t ∧ CompletesWith [.regs] s t ∧ ∀ r, t.reg r = if r = x then b else s.reg r :=
  ⟨_, rfl, (unchangedExcept_setReg s x b).completesWith (by decide), by simp⟩

/-- The result stays in `Vx` whatever x is, and the flag in `VF` unless x = 15 (R23). -/
theorem exists_advance_setFlagAndReg (s : State) (flag : Bool) (x : Reg) (b : Byte) :
    ∃ t, advance (s.setFlagAndReg flag x b) = .next t ∧ CompletesWith [.regs] s t ∧
      t.reg x = b ∧ (x ≠ 15 → t.reg 15 = flagByte flag) ∧ ∀ r, r ≠ x → r ≠ 15 → t.reg r = s.reg r := by
  refine ⟨_, rfl, (unchangedExcept_setFlagAndReg s flag x b).completesWith (by decide), by simp, fun hx => ?_, fun r hrx hr => ?_⟩
  · simp [hx.symm, flagReg]
  · simp [hrx, hr, flagReg]

/-! ### Flags and results as numbers (R166 to R168, R179) -/

theorem flagByte_carryOut (a b : Byte) : flagByte (carryOut a b) = if 256 ≤ a.toNat + b.toNat then 1 else 0 := by
  simp [flagByte, carryOut]

theorem flagByte_noBorrow (a b : Byte) : flagByte (noBorrow a b) = if b.toNat ≤ a.toNat then 1 else 0 := by
  simp [flagByte, noBorrow]

/-- The difference modulo 256, written without a negative intermediate value. -/
theorem toNat_byte_sub (a b : Byte) : (a - b).toNat = (a.toNat + 256 - b.toNat) % 256 := by
  bv_omega

/-- A subtraction `a - b` into `Vx`, whichever of the two operands is `Vx` (R167, R168). -/
theorem exists_advance_subtraction (s : State) (x : Reg) (a b : Byte) :
    ∃ t, advance (s.setFlagAndReg (noBorrow a b) x (a - b)) = .next t ∧ CompletesWith [.regs] s t ∧
      (t.reg x).toNat = (a.toNat + 256 - b.toNat) % 256 ∧ (x ≠ 15 → t.reg 15 = if b.toNat ≤ a.toNat then 1 else 0) ∧
      ∀ r, r ≠ x → r ≠ 15 → t.reg r = s.reg r := by
  obtain ⟨t, ht, hcompletes, hresult, hflag, hothers⟩ := exists_advance_setFlagAndReg s (noBorrow a b) x (a - b)
  exact ⟨t, ht, hcompletes, by rw [hresult, toNat_byte_sub], fun hx => (hflag hx).trans (flagByte_noBorrow a b), hothers⟩

/-! ### The obligations of the family -/

/-- Settles O31: both write one register; the sum of two bytes is the sum modulo 256. -/
theorem immediateLoadAndAdd : Obligations.ImmediateLoadAndAdd := by
  intro x nn s
  refine ⟨wordMeans_of_toNat_encode (toNat_formatXNN 0x6 x nn), wordMeans_of_toNat_encode (toNat_formatXNN 0x7 x nn),
    exists_advance_setReg s x nn, ?_⟩
  obtain ⟨t, ht, hcompletes, hreg⟩ := exists_advance_setReg s x (s.reg x + nn)
  exact ⟨t, ht, hcompletes, by simp [hreg, BitVec.toNat_add], fun r hr => by simp [hreg, hr]⟩

/-- Settles O32: each of the four writes one register. -/
theorem copyAndBitwise : Obligations.CopyAndBitwise := fun x y s =>
  ⟨⟨wordMeans_of_encode_eq_formatXYN (n := 0x0) rfl, wordMeans_of_encode_eq_formatXYN (n := 0x1) rfl,
      wordMeans_of_encode_eq_formatXYN (n := 0x2) rfl, wordMeans_of_encode_eq_formatXYN (n := 0x3) rfl⟩,
    exists_advance_setReg s x (s.reg y), exists_advance_setReg s x (s.reg x ||| s.reg y),
    exists_advance_setReg s x (s.reg x &&& s.reg y), exists_advance_setReg s x (s.reg x ^^^ s.reg y)⟩

/-- Settles O33: the carry and the sum are computed from the old values, and the sum is written last. -/
theorem addCarrySumAndFlag : Obligations.AddCarrySumAndFlag := by
  intro x y s
  refine ⟨wordMeans_of_encode_eq_formatXYN (n := 0x4) rfl, ?_⟩
  obtain ⟨t, ht, hcompletes, hsum, hflag, hothers⟩ :=
    exists_advance_setFlagAndReg s (carryOut (s.reg x) (s.reg y)) x (s.reg x + s.reg y)
  exact ⟨t, ht, hcompletes, by rw [hsum, BitVec.toNat_add], fun hx => (hflag hx).trans (flagByte_carryOut _ _), hothers⟩

/-- Settles O34: both are one subtraction into `Vx`, with the operands in either order. -/
theorem subtractionsAndNoBorrowFlag : Obligations.SubtractionsAndNoBorrowFlag := fun x y s =>
  ⟨wordMeans_of_encode_eq_formatXYN (n := 0x5) rfl, wordMeans_of_encode_eq_formatXYN (n := 0x7) rfl,
    exists_advance_subtraction s x (s.reg x) (s.reg y), exists_advance_subtraction s x (s.reg y) (s.reg x)⟩

end Sys2Proof

/-! The keypad wait (45_key_timer.md R232): the words of group F, and the two ways `wait-key` ends. -/

namespace Sys2Proof

open Sys2Proof.Machine

/-! ### The words of group F (R95, R96) -/

/-- The base of a group F word and its trailing byte, added first, are the number that R96 writes. -/
theorem wordMeans_of_encode_eq_formatXNN {i : Instr} {x : Reg} {nn : Byte} (h : encode i = formatXNN 0xF x nn) :
    WordMeans (0xF000 + nn.toNat + x.val * 0x100) i := by
  refine wordMeans_of_toNat_encode ?_
  simp only [h, toNat_formatXNN, BitVec.reduceToNat]
  omega

/-! ### The key scan and the two ends of `wait-key` (R232) -/

theorem leastPressed_eq_none_of_key_eq_zero {s : State} (hkey : s.key = 0) : leastPressed s = none :=
  leastPressed_eq_none.mpr fun k => by simp [pressed, hkey]

/-- With a key pressed, `wait-key` is the default advance over one register write. -/
theorem exec_waitKey_of_leastPressed_eq_some {s : State} {k : Fin 16} (hk : leastPressed s = some k) (x : Reg) :
    exec (.waitKey x) s = advance (s.setReg x (BitVec.ofNat 8 k.val)) :=
  execWaitKey_eq_next.mpr (.inl ⟨k, hk, rfl⟩)

/-- With no key pressed, `wait-key` is a transfer to its own address. -/
theorem exec_waitKey_of_leastPressed_eq_none {s : State} (hk : leastPressed s = none) (x : Reg) :
    exec (.waitKey x) s = transfer s.pc s :=
  execWaitKey_eq_next.mpr (.inr ⟨hk, rfl⟩)

/-- A key number fits in a byte. -/
theorem toNat_ofNat_key (k : Fin 16) : (BitVec.ofNat 8 k.val).toNat = k.val :=
  (BitVec.toNat_ofNat _ _).trans (Nat.mod_eq_of_lt (Nat.lt_trans k.isLt (by decide)))

/-! ### The obligation of the family -/

/-- Settles O45: the scan finds the least pressed key, which is written to one register; with no key pressed the step transfers to its own `PC`. -/
theorem waitKeyTakesTheLeastKey : Obligations.WaitKeyTakesTheLeastKey := by
  intro x s
  refine ⟨wordMeans_of_encode_eq_formatXNN (nn := 0x0A) rfl, fun k hpressed hleast => ?_, fun hkey => ?_⟩
  · have hk : leastPressed s = some k := leastPressed_eq_some.mpr ⟨hpressed, hleast⟩
    obtain ⟨t, ht, hcompletes, hreg⟩ := exists_advance_setReg s x (BitVec.ofNat 8 k.val)
    refine ⟨t, (exec_waitKey_of_leastPressed_eq_some hk x).trans ht, hcompletes, ?_, fun r hr => ?_⟩
    · rw [hreg, if_pos rfl, toNat_ofNat_key]
    · rw [hreg, if_neg hr]
  · have hk : leastPressed s = none := leastPressed_eq_none_of_key_eq_zero hkey
    exact ⟨_, exec_waitKey_of_leastPressed_eq_none hk x, (unchangedExcept_refl s).transfersTo s.pc⟩

end Sys2Proof

/-! Block moves and the BCD store (46_memory_block.md R250 to R252, R256): the frames of the two effects, the address a failed range check reports,
and a store of any bytes at `I`, which the block store and the BCD store both are. -/

namespace Sys2Proof

open Sys2Proof.Machine

section BlockMoves

variable {s : State} {bs : List Byte}

/-! ### The frames of the two effects (R250, R251) -/

theorem unchangedExcept_setMem (s : State) (m : Memory) : UnchangedExcept [.mem] s (s.setMem m) := by
  intro p hp
  cases p <;> simp_all [Part.same]

theorem unchangedExcept_setRegs (s : State) (v : Vector Byte 16) : UnchangedExcept [.regs] s (s.setRegs v) := by
  intro p hp
  cases p <;> simp_all [Part.same]

/-! ### The reported address (R250, R256) -/

/-- The first address of a block from `I` upward that is outside the memory: `MEM_SIZE`, or `I` where `I` is above it. -/
theorem ofNat_max_memSize (a : Addr) : BitVec.ofNat 16 (max a.toNat memSize) = if a.toNat ≤ 0xFFF then 0xFFF else a := by
  unfold memSize
  split
  next hle => rw [Nat.max_eq_right hle]; rfl
  next hgt => rw [Nat.max_eq_left (by omega), BitVec.ofNat_toNat, BitVec.setWidth_eq]

/-- A range check that fails for a block at `I` abandons the step (R68). -/
theorem abandonedWith_latchFault_max (s : State) :
    AbandonedWith (.invalidAddress (if s.index.toNat ≤ 0xFFF then 0xFFF else s.index)) s
      (s.latchFault (.invalidAddress (BitVec.ofNat 16 (max s.index.toNat memSize)))) :=
  ofNat_max_memSize s.index ▸ abandonedWith_latchFault _ s

/-! ### A store of any bytes at `I` (R62, R68) -/

/-- Inside the memory, a store completes: the bytes lie at `I` upward, and no other address changes. -/
theorem exists_storeAtIndex_completesWith (hne : bs ≠ []) (hfit : s.index.toNat + bs.length ≤ memSize) :
    ∃ t, storeAtIndex bs s = .next t ∧ CompletesWith [.mem] s t ∧
      (∀ a, (∀ k < bs.length, a ≠ dataAddr s k) → t.mem.read a = s.mem.read a) ∧
      (s.mem.wf = true → ∀ (k : Nat) (hk : k < bs.length), t.mem.read (dataAddr s k) = bs[k]) := by
  refine ⟨_, (storeAtIndex_eq_next hne).mpr (.inl ⟨hfit, rfl⟩), (unchangedExcept_setMem s _).completesWith (by decide),
    fun a ha => ?_, fun hwf k hk => Memory.read_writeBytes_inside bs hwf hfit k hk⟩
  have houtside : a < s.index.toNat ∨ s.index.toNat + bs.length ≤ a := by
    by_contra hin
    exact ha (a - s.index.toNat) (by omega) (by unfold dataAddr; omega)
  exact Memory.read_writeBytes_of_outside bs s.mem houtside

/-- A store that reaches outside the memory faults, and nothing is written. -/
theorem exists_storeAtIndex_abandonedWith (hne : bs ≠ []) (hout : memSize < s.index.toNat + bs.length) :
    ∃ t, storeAtIndex bs s = .next t ∧ AbandonedWith (.invalidAddress (if s.index.toNat ≤ 0xFFF then 0xFFF else s.index)) s t :=
  ⟨_, (storeAtIndex_eq_next hne).mpr (.inr ⟨hout, rfl⟩), abandonedWith_latchFault_max s⟩

end BlockMoves

theorem blockRegs_ne_nil (s : State) (x : Reg) : blockRegs s x ≠ [] :=
  List.ne_nil_of_length_pos (by simp)

/-- A number that a byte bounds, such as its decimal digits, fits in a byte. -/
theorem toNat_ofNat_of_le_toNat {n : Nat} {b : Byte} (h : n ≤ b.toNat) : (BitVec.ofNat 8 n).toNat = n :=
  (BitVec.toNat_ofNat n 8).trans (Nat.mod_eq_of_lt (Nat.lt_of_le_of_lt h b.isLt))

/-- The digits as numbers: hundreds, tens, ones (R252). -/
theorem toNat_getElem_bcdDigits (b : Byte) :
    (bcdDigits b)[0].toNat = b.toNat / 100 ∧ (bcdDigits b)[1].toNat = b.toNat / 10 % 10 ∧ (bcdDigits b)[2].toNat = b.toNat % 10 :=
  ⟨toNat_ofNat_of_le_toNat (b := b) (by omega), toNat_ofNat_of_le_toNat (b := b) (by omega), toNat_ofNat_of_le_toNat (b := b) (by omega)⟩

/-! ### The obligations of the family -/

/-- Settles O48: the bytes stored at `I` are `V0` to `Vx`, and I + x is the last address of the block. -/
theorem blockStore : Obligations.BlockStore := by
  intro x s
  refine ⟨wordMeans_of_encode_eq_formatXNN (nn := 0x55) rfl, fun hfit => ?_, fun hout => ?_⟩
  · obtain ⟨t, ht, hcompletes, hothers, hbytes⟩ := exists_storeAtIndex_completesWith (s := s) (blockRegs_ne_nil s x)
      (by rw [length_blockRegs]; unfold memSize; omega)
    simp only [length_blockRegs] at hothers hbytes
    refine ⟨t, ht, hcompletes, fun a ha => hothers a fun k hk => ha ⟨k, by omega⟩ (Nat.le_of_lt_succ hk), fun hwf k hk => ?_⟩
    rw [hbytes hwf k (Nat.lt_succ_of_le hk), getElem_blockRegs]
  · exact exists_storeAtIndex_abandonedWith (blockRegs_ne_nil s x) (by rw [length_blockRegs]; unfold memSize; omega)

/-- Settles O50: one write sets all registers, those above x to what they were, once the whole block is inside the memory. -/
theorem blockLoad : Obligations.BlockLoad := by
  intro x s
  refine ⟨wordMeans_of_encode_eq_formatXNN (nn := 0x65) rfl, fun hfit => ?_, fun hout => ?_⟩
  · exact ⟨_, execLoadRegsFromMem_eq_next.mpr (.inl ⟨by unfold memSize; omega, rfl⟩),
      (unchangedExcept_setRegs s _).completesWith (by decide), getElem_loadedRegs s x⟩
  · exact ⟨_, execLoadRegsFromMem_eq_next.mpr (.inr ⟨by unfold memSize; omega, rfl⟩), abandonedWith_latchFault_max s⟩

/-- Settles O51: the bytes stored at `I` are the three digits, and the block is `I` to I + 2. -/
theorem bcdStore : Obligations.BcdStore := by
  intro x s
  have hne : bcdDigits (s.reg x) ≠ [] := List.cons_ne_nil _ _
  refine ⟨wordMeans_of_encode_eq_formatXNN (nn := 0x33) rfl, fun hfit => ?_, fun hout => ?_⟩
  · obtain ⟨t, ht, hcompletes, hothers, hbytes⟩ := exists_storeAtIndex_completesWith (s := s) hne
      (by rw [length_bcdDigits]; unfold memSize; omega)
    refine ⟨t, ht, hcompletes, fun a h0 h1 h2 => hothers a fun k hk => ?_, fun hwf => ?_⟩
    · rw [length_bcdDigits] at hk
      interval_cases k <;> assumption
    · rw [hbytes hwf 0 (by simp), hbytes hwf 1 (by simp), hbytes hwf 2 (by simp)]
      exact toNat_getElem_bcdDigits (s.reg x)
  · exact exists_storeAtIndex_abandonedWith hne (by rw [length_bcdDigits]; unfold memSize; omega)

end Sys2Proof

/-! Host operations (48_host_operations.md R271, R276): the two answers of `load`, and the parts of the state that `tick` writes. -/

namespace Sys2Proof

open Sys2Proof.Machine

section HostOperations

variable {s : State} {bytes : List Byte}

/-! ### The two answers of `load` (R271) -/

theorem load_of_fits (hfit : progBase + bytes.length ≤ memSize) : load bytes s = (s.setMem (s.mem.writeBytes progBase bytes), .ok) :=
  if_neg (by omega)

theorem load_of_too_large (hlarge : memSize < progBase + bytes.length) : load bytes s = (s, .romTooLarge) :=
  if_pos (by omega)

/-- 3583 bytes fill the memory from `PROG_BASE` to its last address. -/
theorem fits_iff_length_le : progBase + bytes.length ≤ memSize ↔ bytes.length ≤ 3583 := by
  unfold progBase memSize
  omega

/-! ### The parts that `tick` writes (R276) -/

/-- The saturating count is subtraction on the naturals. -/
theorem toNat_countDown (b : Byte) : (countDown b).toNat = b.toNat - 1 := by
  unfold countDown
  split
  next hzero => simp [hzero]
  next hne => bv_omega

@[simp] theorem tick_dt : (tick s).dt = countDown s.dt := rfl

@[simp] theorem tick_st : (tick s).st = countDown s.st := rfl

@[simp] theorem tick_key : (tick s).key = 0 := rfl

@[simp] theorem tick_drawn : (tick s).drawn = (s.drawn && !s.ack) := rfl

@[simp] theorem tick_ack : (tick s).ack = false := rfl

theorem unchangedExcept_tick (s : State) : UnchangedExcept [.dt, .st, .key, .drawn, .ack] s (tick s) := by
  intro p hp
  cases p <;> simp_all [Part.same, tick]

end HostOperations

/-! ### The obligations of the family -/

/-- Settles O53: a list that fits is one block write at `PROG_BASE`, and one that does not leaves the state as it is. -/
theorem hostLoad : Obligations.HostLoad := by
  intro bytes s
  refine ⟨fun hlen => ?_, fun hlen => load_of_too_large ?_⟩
  · have hfit : progBase + bytes.length ≤ memSize := fits_iff_length_le.mpr hlen
    rw [load_of_fits hfit]
    exact ⟨rfl, unchangedExcept_setMem s _, fun a houtside => Memory.read_writeBytes_of_outside bytes s.mem houtside,
      fun hwf k hk => Memory.read_writeBytes_inside bytes hwf hfit k hk⟩
  · exact Nat.lt_of_not_le fun hfit => Nat.not_le_of_lt hlen (fits_iff_length_le.mp hfit)

/-- Settles O54: the timers count down as naturals, and the handshake is a case split on `ACK`. -/
theorem tickCountsDown : Obligations.TickCountsDown := by
  intro s
  refine ⟨unchangedExcept_tick s, toNat_countDown s.dt, toNat_countDown s.st, fun k => ?_, fun hack => ?_, fun hack => ?_⟩
  · rw [tick_key]
    exact BitVec.getLsbD_zero
  · simp [hack]
  · simp [hack]

end Sys2Proof

/-! Which instruction can raise what, exhaustively (60_exceptions.md R302): the table of fatal faults after a successful fetch. -/

namespace Sys2Proof

open Sys2Proof.Machine

/-- The rows of the table of R302: `i` can end in a fatal fault of cause `c`. -/
def MayRaise (i : Instr) (c : FaultCause) : Prop :=
  match i with
  | .call _ => c = .stackOverflow
  | .ret => c = .stackUnderflow
  | .draw _ _ n => 0 < n.val ∧ ∃ a, c = .invalidAddress a
  | .storeBcd _ => ∃ a, c = .invalidAddress a
  | .storeRegsToMem _ => ∃ a, c = .invalidAddress a
  | .loadRegsFromMem _ => ∃ a, c = .invalidAddress a
  | .addIndexFromReg _ => ∃ a, c = .invalidAddress a
  | _ => False

section FaultTable

variable {s t u : State}

/-- An instruction that checks addresses faults with an invalid address where it does not complete (R68). -/
theorem halted_eq_or_invalidAddress_of_guard {inside outside : Prop} {a : Addr}
    (h : (inside ∧ t = u.setStatus .ok) ∨ (outside ∧ t = s.latchFault (.invalidAddress a))) (hu : u.halted = s.halted) :
    t.halted = s.halted ∨ ∃ a, t.fault = .invalidAddress a := by
  obtain ⟨_, rfl⟩ | ⟨_, rfl⟩ := h
  · exact .inl hu
  · exact .inr ⟨a, rfl⟩

/-- An instruction leaves `HALTED` as it was, or its row of the table lists the cause it leaves recorded. -/
theorem exec_halted_eq_or_mayRaise {i : Instr} (h : exec i s = .next t) : t.halted = s.halted ∨ MayRaise i t.fault := by
  cases i
  case clear | loadImm | addImm | copy | or | and | xor | addCarry | subBorrow | shiftRight | subBorrowRev | shiftLeft | loadIndex
      | random | storeDelay | setDelay | setSound | fontAddress =>
    obtain rfl := advance_eq_next.mp h
    exact .inl rfl
  case jump | jump0 =>
    obtain rfl := transfer_eq_next.mp h
    exact .inl rfl
  case skipEqImm | skipNeImm | skipEqReg | skipNeReg | skipIfPressed | skipIfNotPressed =>
    obtain rfl := skipIf_eq_next.mp h
    exact .inl rfl
  case waitKey =>
    obtain ⟨_, _, rfl⟩ | ⟨_, rfl⟩ := execWaitKey_eq_next.mp h
    iterate 2 exact .inl rfl
  case ret =>
    obtain ⟨_, rfl⟩ | ⟨_, rfl⟩ := execReturn_eq_next.mp h
    · exact .inl rfl
    · exact .inr rfl
  case call =>
    obtain ⟨_, rfl⟩ | ⟨_, rfl⟩ := execCall_eq_next.mp h
    · exact .inl rfl
    · exact .inr rfl
  case draw =>
    obtain ⟨_, rfl⟩ | ⟨hrows, _, rfl⟩ := execDraw_eq_next.mp h
    · exact .inl rfl
    · exact .inr ⟨Nat.pos_of_ne_zero hrows, _, rfl⟩
  case addIndexFromReg => exact halted_eq_or_invalidAddress_of_guard (execAddIndexFromReg_eq_next.mp h) rfl
  case storeBcd => exact halted_eq_or_invalidAddress_of_guard (execStoreBcd_eq_next.mp h) rfl
  case storeRegsToMem => exact halted_eq_or_invalidAddress_of_guard (execStoreRegsToMem_eq_next.mp h) rfl
  case loadRegsFromMem => exact halted_eq_or_invalidAddress_of_guard (execLoadRegsFromMem_eq_next.mp h) rfl

end FaultTable

/-- A clock on a word that decodes to an instruction runs it (R123). -/
theorem step_of_decode_eq_ok {s : State} {i : Instr} (hrun : s.halted = false) (hpc : s.pc.toNat ≤ 0xFFD)
    (hd : decode (wordAtPc s) = .ok i) : step s = exec i s := by
  simp [step, hrun, fetch_eq_wordAtPc hpc, hd]

/-- Settles O13: a decoded instruction halts only by a cause of its row, and an unassigned word halts nothing. -/
theorem onlyTheseInstructionsFault : Obligations.OnlyTheseInstructionsFault := by
  intro s t hrun hpc h hhalted
  have hne : t.halted ≠ s.halted := by simp [hrun, hhalted]
  cases hd : decode (wordAtPc s) with
  | ok i =>
    have hexec : exec i s = .next t := (step_of_decode_eq_ok hrun hpc hd).symm.trans h
    exact ⟨i, rfl, (exec_halted_eq_or_mayRaise hexec).resolve_left hne⟩
  | error e =>
    obtain rfl : _ = t := Host.Outcome.next.inj ((step_of_decode_eq_error hrun hpc hd).symm.trans h)
    exact absurd rfl hne

end Sys2Proof

/-! The encoding (30_encoding.md R91 to R108): a decoded instruction has the word it was decoded from, and the rows of the opcode map are pairwise
disjoint. -/

namespace Sys2Proof

open Sys2Proof.Machine

/-! ### The word of a decoded instruction (R92, R93, R96) -/

/-- What the dispatch may answer for a word if it drops no bit: an instruction that the word encodes, or a rejection. -/
def AnswersItsWord (w : Word) : Except Rejected Instr → Prop
  | .ok i => encode i = w
  | .error _ => True

section Groups

variable {w : Word}

theorem formatNNN_eq_of_op {op : BitVec 4} (hop : (fieldsOf w).op.toNat = op.toNat) : formatNNN op (fieldsOf w).nnn = w := by
  rw [← BitVec.eq_of_toNat_eq hop, formatNNN_fieldsOf]

theorem formatXNN_eq_of_op {op : BitVec 4} (hop : (fieldsOf w).op.toNat = op.toNat) :
    formatXNN op (regOf (fieldsOf w).x) (fieldsOf w).nn = w := by
  rw [← BitVec.eq_of_toNat_eq hop, formatXNN_fieldsOf]

theorem formatXNN_eq_of_op_nn {op : BitVec 4} {nn : Byte} (hop : (fieldsOf w).op.toNat = op.toNat)
    (hnn : (fieldsOf w).nn.toNat = nn.toNat) : formatXNN op (regOf (fieldsOf w).x) nn = w := by
  rw [← BitVec.eq_of_toNat_eq hnn, formatXNN_eq_of_op hop]

theorem formatXYN_eq_of_op_n {op n : BitVec 4} (hop : (fieldsOf w).op.toNat = op.toNat) (hn : (fieldsOf w).n.toNat = n.toNat) :
    formatXYN op (regOf (fieldsOf w).x) (regOf (fieldsOf w).y) n = w := by
  rw [← BitVec.eq_of_toNat_eq hop, ← BitVec.eq_of_toNat_eq hn, formatXYN_fieldsOf]

/-- Group 0 fixes all 16 bits. -/
theorem dispatch0_answersItsWord (hop : (fieldsOf w).op.toNat = 0x0) : AnswersItsWord w (dispatch0 (fieldsOf w)) := by
  have hw : formatNNN 0x0 (fieldsOf w).nnn = w := formatNNN_eq_of_op hop
  unfold dispatch0
  split
  next hnnn => exact (congrArg (formatNNN 0x0) (BitVec.eq_of_toNat_eq (y := 0x0E0#12) hnnn)).symm.trans hw
  next hnnn => exact (congrArg (formatNNN 0x0) (BitVec.eq_of_toNat_eq (y := 0x0EE#12) hnnn)).symm.trans hw
  next => trivial

/-- Groups 5, 8 and 9 are format XYN with a trailing nibble that the dispatch has matched. -/
theorem dispatch5_answersItsWord (hop : (fieldsOf w).op.toNat = 0x5) : AnswersItsWord w (dispatch5 (fieldsOf w)) := by
  unfold dispatch5
  split
  next hn => exact formatXYN_eq_of_op_n hop hn
  next => trivial

theorem dispatch8_answersItsWord (hop : (fieldsOf w).op.toNat = 0x8) : AnswersItsWord w (dispatch8 (fieldsOf w)) := by
  unfold dispatch8
  split
  iterate 9
    next hn => exact formatXYN_eq_of_op_n hop hn
  next => trivial

theorem dispatch9_answersItsWord (hop : (fieldsOf w).op.toNat = 0x9) : AnswersItsWord w (dispatch9 (fieldsOf w)) := by
  unfold dispatch9
  split
  next hn => exact formatXYN_eq_of_op_n hop hn
  next => trivial

/-- Groups E and F are format XNN with a trailing byte that the dispatch has matched. -/
theorem dispatchE_answersItsWord (hop : (fieldsOf w).op.toNat = 0xE) : AnswersItsWord w (dispatchE (fieldsOf w)) := by
  unfold dispatchE
  split
  iterate 2
    next hnn => exact formatXNN_eq_of_op_nn hop hnn
  next => trivial

theorem dispatchF_answersItsWord (hop : (fieldsOf w).op.toNat = 0xF) : AnswersItsWord w (dispatchF (fieldsOf w)) := by
  unfold dispatchF
  split
  iterate 9
    next hnn => exact formatXNN_eq_of_op_nn hop hnn
  next => trivial

theorem decode_answersItsWord (w : Word) : AnswersItsWord w (decode w) := by
  unfold decode dispatch
  split
  next hop => exact dispatch0_answersItsWord hop
  iterate 2
    next hop => exact formatNNN_eq_of_op hop
  iterate 2
    next hop => exact formatXNN_eq_of_op hop
  next hop => exact dispatch5_answersItsWord hop
  iterate 2
    next hop => exact formatXNN_eq_of_op hop
  next hop => exact dispatch8_answersItsWord hop
  next hop => exact dispatch9_answersItsWord hop
  iterate 2
    next hop => exact formatNNN_eq_of_op hop
  next hop => exact formatXNN_eq_of_op hop
  next hop => exact formatXYN_eq_of_op_n hop rfl
  next hop => exact dispatchE_answersItsWord hop
  next =>
    have hlt := (fieldsOf w).op.isLt
    simp only [imp_false] at *
    have hop : (fieldsOf w).op.toNat = 0xF := by omega
    exact dispatchF_answersItsWord hop

end Groups

/-! ### The rows of the opcode map (R96) -/

/-- Two rows that select one word agree on the bits that both masks look at. -/
theorem pattern_and_mask_eq_of_selects {r₁ r₂ : Row} {w : Word} (h₁ : r₁.selects w = true) (h₂ : r₂.selects w = true) :
    r₁.pattern &&& r₂.mask = r₂.pattern &&& r₁.mask := by
  have e₁ : w &&& r₁.mask = r₁.pattern := by simpa [Row.selects] using h₁
  have e₂ : w &&& r₂.mask = r₂.pattern := by simpa [Row.selects] using h₂
  rw [← e₁, ← e₂, BitVec.and_assoc, BitVec.and_assoc, BitVec.and_comm r₁.mask]

/-- Any two rows of the map differ in a bit that both masks look at. -/
theorem eq_of_mem_opcodeMap_of_agree :
    ∀ r₁ ∈ opcodeMap, ∀ r₂ ∈ opcodeMap, r₁.pattern &&& r₂.mask = r₂.pattern &&& r₁.mask → r₁ = r₂ := by
  decide

/-! ### The obligations of the encoding -/

/-- Settles O1: `decode_encode`, for every instruction. -/
theorem decodeOfEncode : Obligations.DecodeOfEncode := decode_encode

/-- Settles O2: in every group the format of the answered instruction is filled with the word's own fields. -/
theorem encodeOfDecode : Obligations.EncodeOfDecode := by
  intro w i h
  simpa [h, AnswersItsWord] using decode_answersItsWord w

/-- Settles O4: a word selected by two rows makes them agree under both masks, which different rows of the map do not. -/
theorem opcodeRowsAreDisjoint : Obligations.OpcodeRowsAreDisjoint :=
  ⟨rfl, by decide, fun _ r₁ hr₁ r₂ hr₂ h₁ h₂ =>
    eq_of_mem_opcodeMap_of_agree r₁ hr₁ r₂ hr₂ (pattern_and_mask_eq_of_selects h₁ h₂)⟩

/-- Settles O5: each of the thirteen numbers is the encoding of its instruction; the three other words are looked up. -/
theorem writtenWordsDecode : Obligations.WrittenWordsDecode := by
  refine ⟨?_, ?_, ?_, ?_, ?_, ?_, ?_, ?_, ?_, ?_, ?_, ?_, ?_, ⟨by decide, by decide⟩, ⟨by decide, by decide⟩, ⟨by decide, by decide⟩⟩
  all_goals exact wordMeans_of_toNat_encode (by decide)

end Sys2Proof

/-! What instructions may write (10_state.md R20 to R22, R43): the frame of every instruction, its registers, the flag in `VF`, and the frame of a
clock. -/

namespace Sys2Proof

open Sys2Proof.Machine

section WrittenParts

variable {s t u : State} {ps qs : List Part} {i : Instr} {x r : Reg} {b : Byte} {flag : Bool}

/-! ### Frames of single updates and of updates in sequence -/

theorem UnchangedExcept.trans (hsu : UnchangedExcept ps s u) (hut : UnchangedExcept qs u t) : UnchangedExcept (ps ++ qs) s t := fun p hp =>
  Part.same_trans (hsu p fun hin => hp (List.mem_append_left _ hin)) (hut p fun hin => hp (List.mem_append_right _ hin))

theorem unchangedExcept_setIndex (s : State) (a : Addr) : UnchangedExcept [.index] s (s.setIndex a) := by
  intro p hp
  cases p <;> simp_all [Part.same]

theorem unchangedExcept_setDelayTimer (s : State) (b : Byte) : UnchangedExcept [.dt] s (s.setDelayTimer b) := by
  intro p hp
  cases p <;> simp_all [Part.same]

theorem unchangedExcept_setSoundTimer (s : State) (b : Byte) : UnchangedExcept [.st] s (s.setSoundTimer b) := by
  intro p hp
  cases p <;> simp_all [Part.same]

theorem unchangedExcept_countDraw (s : State) : UnchangedExcept [.draws] s s.countDraw := by
  intro p hp
  cases p <;> simp_all [Part.same]

/-- `draw` writes the screen with `DRAWN`, and `VF` (R34, R38). -/
theorem unchangedExcept_setScreen_setReg (s : State) (fb : Screen) (x : Reg) (b : Byte) :
    UnchangedExcept [.regs, .fb, .drawn] s ((s.setScreen fb).setReg x b) :=
  UnchangedExcept_mono ((unchangedExcept_setScreen fb).trans (unchangedExcept_setReg _ x b)) (by decide)

/-! ### Frames of the ways an instruction ends -/

theorem UnchangedExcept.of_advance (hu : UnchangedExcept ps s u) (h : advance u = .next t) : UnchangedExcept (.pc :: .status :: ps) s t := by
  obtain rfl := advance_eq_next.mp h
  exact hu.setPc_setStatus _ _

theorem unchangedExcept_of_transfer {a : Addr} (h : transfer a s = .next t) : UnchangedExcept [.pc, .status] s t := by
  obtain rfl := transfer_eq_next.mp h
  exact unchangedExcept_setPc_setStatus s _ _

theorem unchangedExcept_of_skipIf {c : Bool} (h : skipIf c s = .next t) : UnchangedExcept [.pc, .status] s t := by
  obtain rfl := skipIf_eq_next.mp h
  exact unchangedExcept_setPc_setStatus s _ _

/-- An instruction that can fault, where it completes. -/
theorem UnchangedExcept.of_completes (hu : UnchangedExcept ps s u) (a : Addr) :
    UnchangedExcept (.pc :: ps ++ faultParts) s ((u.setPc a).setStatus .ok) :=
  UnchangedExcept_mono (hu.setPc_setStatus a .ok) fun p hp => by
    simp only [List.mem_cons, List.mem_append, faultParts] at hp ⊢
    tauto

/-- An instruction that can fault, where it does. -/
theorem unchangedExcept_latchFault (ps : List Part) (c : FaultCause) (s : State) :
    UnchangedExcept (.pc :: ps ++ faultParts) s (s.latchFault c) :=
  UnchangedExcept_mono (abandonedWith_latchFault c s).frame fun _ hp => List.mem_append_right _ hp

theorem UnchangedExcept.of_guard {inside outside : Prop} {a : Addr} {c : FaultCause} (hu : UnchangedExcept ps s u)
    (h : (inside ∧ t = (u.setPc a).setStatus .ok) ∨ (outside ∧ t = s.latchFault c)) : UnchangedExcept (.pc :: ps ++ faultParts) s t := by
  obtain ⟨_, rfl⟩ | ⟨_, rfl⟩ := h
  · exact hu.of_completes a
  · exact unchangedExcept_latchFault ps c s

/-- The "written by" column of R20, instruction by instruction. -/
theorem exec_unchangedExcept (h : exec i s = .next t) : UnchangedExcept (mayWrite i) s t := by
  cases i
  case clear => exact (unchangedExcept_setScreen _).of_advance h
  case loadImm | addImm | copy | or | and | xor | storeDelay => exact (unchangedExcept_setReg s _ _).of_advance h
  case addCarry | subBorrow | shiftRight | subBorrowRev | shiftLeft => exact (unchangedExcept_setFlagAndReg s _ _ _).of_advance h
  case loadIndex | fontAddress => exact (unchangedExcept_setIndex s _).of_advance h
  case random => exact ((unchangedExcept_setReg s _ _).trans (unchangedExcept_countDraw _)).of_advance h
  case setDelay => exact (unchangedExcept_setDelayTimer s _).of_advance h
  case setSound => exact (unchangedExcept_setSoundTimer s _).of_advance h
  case jump | jump0 => exact unchangedExcept_of_transfer h
  case skipEqImm | skipNeImm | skipEqReg | skipNeReg | skipIfPressed | skipIfNotPressed => exact unchangedExcept_of_skipIf h
  case waitKey =>
    obtain ⟨_, _, rfl⟩ | ⟨_, rfl⟩ := execWaitKey_eq_next.mp h
    · exact (unchangedExcept_setReg s _ _).setPc_setStatus _ _
    · exact UnchangedExcept_mono (unchangedExcept_setPc_setStatus s _ _) (by simp [mayWrite])
  case ret =>
    obtain ⟨_, rfl⟩ | ⟨_, rfl⟩ := execReturn_eq_next.mp h
    · exact (unchangedExcept_setStack_self _).of_completes _
    · exact unchangedExcept_latchFault [.sp] _ s
  case call =>
    obtain ⟨_, rfl⟩ | ⟨_, rfl⟩ := execCall_eq_next.mp h
    · exact (unchangedExcept_setStack _ _).of_completes _
    · exact unchangedExcept_latchFault [.sp, .stack] _ s
  case draw =>
    obtain ⟨_, rfl⟩ | ⟨_, _, rfl⟩ := execDraw_eq_next.mp h
    · exact (unchangedExcept_setScreen_setReg s _ _ _).of_completes _
    · exact unchangedExcept_latchFault [.regs, .fb, .drawn] _ s
  case addIndexFromReg => exact (unchangedExcept_setIndex s _).of_guard (execAddIndexFromReg_eq_next.mp h)
  case storeBcd => exact (unchangedExcept_setMem s _).of_guard (execStoreBcd_eq_next.mp h)
  case storeRegsToMem => exact (unchangedExcept_setMem s _).of_guard (execStoreRegsToMem_eq_next.mp h)
  case loadRegsFromMem => exact (unchangedExcept_setRegs s _).of_guard (execLoadRegsFromMem_eq_next.mp h)

/-! ### Registers and the flag (R22, R23, R43) -/

theorem reg_of_advance_setReg (h : advance (s.setReg x b) = .next t) (hr : r ∉ [x]) : t.reg r = s.reg r := by
  obtain rfl := advance_eq_next.mp h
  simp_all

theorem reg_of_advance_setFlagAndReg (h : advance (s.setFlagAndReg flag x b) = .next t) (hr : r ∉ [x]) (h15 : r ≠ 15) :
    t.reg r = s.reg r := by
  obtain rfl := advance_eq_next.mp h
  simp_all [flagReg]

theorem flag_of_advance_setFlagAndReg (h : advance (s.setFlagAndReg flag x b) = .next t) (hx : (15 : Reg) ∉ [x]) :
    t.reg 15 = flagByte flag := by
  obtain rfl := advance_eq_next.mp h
  simp_all [flagReg]

theorem flagByte_eq_zero_or_one (flag : Bool) : flagByte flag = 0 ∨ flagByte flag = 1 := by
  cases flag
  · exact .inl rfl
  · exact .inr rfl

/-- A register that is neither a destination nor a written flag keeps its value: by the frame where the instruction writes no register at all. -/
theorem exec_reg_of_not_destination (h : exec i s = .next t) (hr : r ∉ destinations i) (hflag : r = 15 → writesFlag i = false) :
    t.reg r = s.reg r := by
  cases i
  case loadImm | addImm | copy | or | and | xor | storeDelay => exact reg_of_advance_setReg h hr
  case addCarry | subBorrow | shiftRight | subBorrowRev | shiftLeft =>
    exact reg_of_advance_setFlagAndReg h hr fun h15 => absurd (hflag h15) (by simp [writesFlag])
  case random =>
    obtain rfl := advance_eq_next.mp h
    simp_all [destinations]
  case waitKey =>
    obtain ⟨_, _, rfl⟩ | ⟨_, rfl⟩ := execWaitKey_eq_next.mp h
    · simp_all [destinations]
    · rfl
  case draw =>
    have h15 : r ≠ flagReg := fun h15 => absurd (hflag h15) (by simp [writesFlag])
    obtain ⟨_, rfl⟩ | ⟨_, _, rfl⟩ := execDraw_eq_next.mp h
    · simp [h15]
    · rfl
  case loadRegsFromMem x =>
    have hx : ¬ r ≤ x := by simpa [destinations] using hr
    obtain ⟨_, rfl⟩ | ⟨_, rfl⟩ := execLoadRegsFromMem_eq_next.mp h
    · simp only [State.reg_setStatus, State.reg_setPc, State.reg_setRegs, getElem_loadedRegs, if_neg hx]
    · rfl
  all_goals exact exec_unchangedExcept h .regs (by simp [mayWrite, faultParts]) r

/-- A flag writer that completes has left a flag byte in `VF`, unless its result went there. -/
theorem exec_flag_of_writesFlag (h : exec i s = .next t) (hrun : t.halted = false) (h15 : (15 : Reg) ∉ destinations i)
    (hi : writesFlag i = true) : ∃ flag, t.reg 15 = flagByte flag := by
  cases i
  case addCarry | subBorrow | shiftRight | subBorrowRev | shiftLeft => exact ⟨_, flag_of_advance_setFlagAndReg h h15⟩
  case draw =>
    obtain ⟨_, rfl⟩ | ⟨_, _, rfl⟩ := execDraw_eq_next.mp h
    · exact ⟨_, (State.reg_setReg _ flagReg _ 15).trans (if_pos rfl)⟩
    · exact absurd hrun (by simp)
  all_goals exact absurd hi (by simp [writesFlag])

/-! ### The frame of a clock (R20, R120) -/

/-- A clock changes a part other than `PC`, the status and the fault only through an instruction that writes that part. -/
theorem step_same_or_mem_mayWrite {p : Part} (h : step s = .next t) (hp : p ∉ .pc :: faultParts) :
    p.same s t ∨ ∃ i, decode (wordAtPc s) = .ok i ∧ exec i s = .next t ∧ p ∈ mayWrite i := by
  simp only [faultParts, List.mem_cons, List.not_mem_nil, or_false, not_or] at hp
  obtain ⟨hpc, hhalted, hfault, hstatus⟩ := hp
  obtain ⟨_, hstep⟩ | ⟨_, _, hstep⟩ | ⟨_, _, w, hfetch, ⟨i, hi, hstep⟩ | ⟨e, _, hstep⟩⟩ := step_cases s
  · obtain rfl : _ = t := Host.Outcome.next.inj (hstep.symm.trans h)
    exact .inl (unchangedExcept_setPc_setStatus s s.pc _ p (by simp [hpc, hstatus]))
  · obtain rfl := raiseInvalidAddress_eq_next.mp (hstep.symm.trans h)
    exact .inl ((abandonedWith_latchFault _ s).frame p (by simp [hhalted, hfault, hstatus]))
  · obtain rfl := eq_wordAtPc_of_fetch_eq_ok hfetch
    have hexec := hstep.symm.trans h
    by_cases hmem : p ∈ mayWrite i
    · exact .inr ⟨i, hi, hexec, hmem⟩
    · exact .inl (exec_unchangedExcept hexec p hmem)
  · obtain rfl : _ = t := Host.Outcome.next.inj (hstep.symm.trans h)
    exact .inl (unchangedExcept_setPc_setStatus s _ _ p (by simp [hpc, hstatus]))

/-- A part that no instruction writes is the host's: a clock leaves it. -/
theorem step_same_of_not_mem_mayWrite {p : Part} (h : step s = .next t) (hp : p ∉ .pc :: faultParts) (hnone : ∀ i, p ∉ mayWrite i) :
    p.same s t :=
  (step_same_or_mem_mayWrite h hp).resolve_right fun ⟨i, _, _, hmem⟩ => hnone i hmem

theorem hostOwned_not_mem_mayWrite (i : Instr) : .key ∉ mayWrite i ∧ .ack ∉ mayWrite i ∧ .legacyShift ∉ mayWrite i := by
  cases i <;> simp [mayWrite, faultParts]

theorem eq_setDelay_of_dt_mem_mayWrite (h : .dt ∈ mayWrite i) : ∃ x, i = .setDelay x := by
  cases i <;> simp_all [mayWrite, faultParts]

theorem eq_setSound_of_st_mem_mayWrite (h : .st ∈ mayWrite i) : ∃ x, i = .setSound x := by
  cases i <;> simp_all [mayWrite, faultParts]

/-- `clear` and `draw` set `DRAWN`; no other instruction writes it. -/
theorem exec_keeps_drawn (h : exec i s = .next t) (hd : s.drawn = true) : t.drawn = true := by
  cases i
  case clear =>
    obtain rfl := advance_eq_next.mp h
    rfl
  case draw =>
    obtain ⟨_, rfl⟩ | ⟨_, _, rfl⟩ := execDraw_eq_next.mp h
    · rfl
    · exact hd
  all_goals exact (exec_unchangedExcept h .drawn (by simp [mayWrite, faultParts])).trans hd

theorem step_keeps_drawn (h : step s = .next t) (hd : s.drawn = true) : t.drawn = true := by
  obtain hsame | ⟨i, _, hexec, _⟩ := step_same_or_mem_mayWrite (p := .drawn) h (by decide)
  · exact hsame.trans hd
  · exact exec_keeps_drawn hexec hd

theorem step_key (h : step s = .next t) : t.key = s.key :=
  step_same_of_not_mem_mayWrite (p := .key) h (by decide) fun i => (hostOwned_not_mem_mayWrite i).1

theorem step_ack (h : step s = .next t) : t.ack = s.ack :=
  step_same_of_not_mem_mayWrite (p := .ack) h (by decide) fun i => (hostOwned_not_mem_mayWrite i).2.1

theorem step_legacyShift (h : step s = .next t) : t.legacyShift = s.legacyShift :=
  step_same_of_not_mem_mayWrite (p := .legacyShift) h (by decide) fun i => (hostOwned_not_mem_mayWrite i).2.2

end WrittenParts

/-! ### The obligations of the family -/

/-- Settles O19: `exec_unchangedExcept`, for every instruction. -/
theorem instructionsWriteOnlyTheirState : Obligations.InstructionsWriteOnlyTheirState := fun _ _ _ h => exec_unchangedExcept h

/-- Settles O20: `exec_reg_of_not_destination`, for every register. -/
theorem onlyDestinationRegistersChange : Obligations.OnlyDestinationRegistersChange := fun _ _ _ h _ hr hflag =>
  exec_reg_of_not_destination h hr hflag

/-- Settles O21: a flag is the byte 0 or 1, and without a flag `VF` is a register like the others. -/
theorem flagIsWrittenByExactlySix : Obligations.FlagIsWrittenByExactlySix := by
  intro i s t _ h hrun h15
  refine ⟨fun hi => ?_, fun hi => exec_reg_of_not_destination h h15 fun _ => hi⟩
  obtain ⟨flag, hflag⟩ := exec_flag_of_writesFlag h hrun h15 hi
  exact hflag ▸ flagByte_eq_zero_or_one flag

/-- Settles O22: no instruction writes `KEY` or `ACK`, those that write `DRAWN` set it, and each timer has one instruction that writes it. -/
theorem clockLeavesHostOwnedState : Obligations.ClockLeavesHostOwnedState := by
  intro s t h
  refine ⟨step_key h, step_ack h, step_keeps_drawn h, fun hdt => ?_, fun hst => ?_⟩
  · obtain ⟨i, hi, _, hmem⟩ := (step_same_or_mem_mayWrite (p := .dt) h (by decide)).resolve_left hdt
    obtain ⟨x, rfl⟩ := eq_setDelay_of_dt_mem_mayWrite hmem
    exact ⟨x, hi⟩
  · obtain ⟨i, hi, _, hmem⟩ := (step_same_or_mem_mayWrite (p := .st) h (by decide)).resolve_left hst
    obtain ⟨x, rfl⟩ := eq_setSound_of_st_mem_mayWrite hmem
    exact ⟨x, hi⟩

end Sys2Proof

/-! That every instruction and every clock answers, and when an instruction faults (60_exceptions.md R304, R330; 40_step_cycle.md R120, R129). -/

namespace Sys2Proof

open Sys2Proof.Machine

/-- The instruction answers a next state from `s`: under `free` a completed step (R128), without it a halted core (R304). -/
def EndsBy (free : Prop) (s : State) (r : Result) : Prop :=
  ∃ t, r = .next t ∧ (free → t.halted = s.halted ∧ t.status = .ok) ∧ (¬ free → t.halted = true)

section Endings

variable {s t u : State} {r : Result} {free : Prop}

theorem endsBy_of_completes (hfree : free) (hr : r = .next t) (ht : t.halted = s.halted ∧ t.status = .ok) : EndsBy free s r :=
  ⟨t, hr, fun _ => ht, fun hnot => absurd hfree hnot⟩

theorem endsBy_of_latchFault {c : FaultCause} (hfree : ¬ free) (hr : r = .next (s.latchFault c)) : EndsBy free s r :=
  ⟨_, hr, fun h => absurd h hfree, fun _ => rfl⟩

/-- The shape of an instruction that checks addresses: the condition is that of the check (R68). -/
theorem endsBy_of_guard {inside outside : Prop} {c : FaultCause}
    (h : ∀ {t}, r = .next t ↔ (inside ∧ t = u.setStatus .ok) ∨ (outside ∧ t = s.latchFault c)) (hu : u.halted = s.halted)
    (hin : free → inside) (hout : ¬ free → outside) : EndsBy free s r := by
  by_cases hfree : free
  · exact endsBy_of_completes hfree (h.mpr (.inl ⟨hin hfree, rfl⟩)) ⟨hu, rfl⟩
  · exact endsBy_of_latchFault hfree (h.mpr (.inr ⟨hout hfree, rfl⟩))

theorem endsBy_true_skipIf (c : Bool) (s : State) : EndsBy True s (skipIf c s) :=
  endsBy_of_completes trivial (skipIf_eq_next.mpr rfl) ⟨rfl, rfl⟩

/-- Where R330 names no condition the instruction is one advance, transfer or skip; where it names one, the condition decides the branch. -/
theorem exec_endsBy (i : Instr) (s : State) : EndsBy (FaultFree i s) s (exec i s) := by
  cases i
  case clear | loadImm | addImm | copy | or | and | xor | addCarry | subBorrow | shiftRight | subBorrowRev | shiftLeft | loadIndex
      | random | storeDelay | setDelay | setSound | fontAddress | jump | jump0 =>
    exact endsBy_of_completes trivial rfl ⟨rfl, rfl⟩
  case skipEqImm | skipNeImm | skipEqReg | skipNeReg | skipIfPressed | skipIfNotPressed => exact endsBy_true_skipIf _ s
  case waitKey x =>
    cases hk : leastPressed s with
    | some k => exact endsBy_of_completes trivial (exec_waitKey_of_leastPressed_eq_some hk x) ⟨rfl, rfl⟩
    | none => exact endsBy_of_completes trivial (exec_waitKey_of_leastPressed_eq_none hk x) ⟨rfl, rfl⟩
  case ret =>
    by_cases hsp : 1 ≤ s.sp.val
    · exact endsBy_of_completes hsp (execReturn_eq_next.mpr (.inl ⟨hsp, rfl⟩)) ⟨rfl, rfl⟩
    · exact endsBy_of_latchFault hsp (exec_ret_of_empty (by omega))
  case call nnn =>
    by_cases hsp : s.sp.val ≤ 15
    · exact endsBy_of_completes hsp (exec_call_of_sp_eq (k := ⟨s.sp.val, by omega⟩) rfl nnn) ⟨rfl, rfl⟩
    · exact endsBy_of_latchFault hsp (exec_call_of_full (by omega) nnn)
  case draw x y n =>
    by_cases hfit : n.val = 0 ∨ s.index.toNat + n.val - 1 ≤ 0xFFE
    · exact endsBy_of_completes hfit (execDraw_eq_next.mpr (.inl ⟨by unfold memSize; omega, rfl⟩)) ⟨rfl, rfl⟩
    · exact endsBy_of_latchFault hfit (execDraw_eq_next.mpr (.inr ⟨by omega, by unfold memSize; omega, rfl⟩))
  all_goals
    unfold FaultFree
  case addIndexFromReg =>
    exact endsBy_of_guard execAddIndexFromReg_eq_next rfl (by unfold memSize; omega) (by unfold memSize; omega)
  case storeBcd => exact endsBy_of_guard execStoreBcd_eq_next rfl (by unfold memSize; omega) (by unfold memSize; omega)
  case storeRegsToMem => exact endsBy_of_guard execStoreRegsToMem_eq_next rfl (by unfold memSize; omega) (by unfold memSize; omega)
  case loadRegsFromMem => exact endsBy_of_guard execLoadRegsFromMem_eq_next (by simp) (by unfold memSize; omega) (by unfold memSize; omega)

/-! ### The cause of a fault, and the clock -/

theorem MayRaise.ne_none {i : Instr} {c : FaultCause} (h : MayRaise i c) : c ≠ .none := by
  rintro rfl
  cases i
  case call | ret => exact FaultCause.noConfusion h
  case draw =>
    obtain ⟨_, _, h⟩ := h
    exact FaultCause.noConfusion h
  case storeBcd | storeRegsToMem | loadRegsFromMem | addIndexFromReg =>
    obtain ⟨_, h⟩ := h
    exact FaultCause.noConfusion h
  all_goals exact h

/-- An instruction that halts a running core has recorded a cause and done nothing else. -/
theorem exists_abandonedWith_of_exec_halts {i : Instr} (hrun : s.halted = false) (h : exec i s = .next t) (hhalted : t.halted = true) :
    ∃ c, c ≠ .none ∧ AbandonedWith c s t := by
  have hne : t.halted ≠ s.halted := by simp [hrun, hhalted]
  obtain ⟨c, rfl⟩ := (exec_completesOrFaults h).resolve_left fun hcompletes => hne hcompletes.1
  exact ⟨c, ((exec_halted_eq_or_mayRaise h).resolve_left hne).ne_none, abandonedWith_latchFault c s⟩

theorem unchangedExcept_setStatus (s : State) (r : StepStatus) : UnchangedExcept [.status] s (s.setStatus r) := by
  intro p hp
  cases p <;> simp_all [Part.same]

theorem step_of_halted (h : s.halted = true) : step s = .next (s.setStatus (.fault s.fault)) := by
  simp [step, h, reportHalted]

theorem exists_exec_eq_next (i : Instr) (s : State) : ∃ t, exec i s = .next t :=
  (exec_endsBy i s).imp fun _ h => h.1

theorem exists_step_eq_next (s : State) : ∃ t, step s = .next t := by
  obtain ⟨_, hstep⟩ | ⟨_, _, hstep⟩ | ⟨_, _, w, _, ⟨i, _, hstep⟩ | ⟨e, _, hstep⟩⟩ := step_cases s
  · exact ⟨_, hstep⟩
  · exact ⟨_, hstep⟩
  · exact hstep ▸ exists_exec_eq_next i s
  · exact ⟨_, hstep⟩

end Endings

/-! ### The obligations of the family -/

/-- Settles O14: `exec_endsBy`, from a state that is not halted. -/
theorem faultFreeConditionsAreExact : Obligations.FaultFreeConditionsAreExact := by
  intro i s hrun
  obtain ⟨t, ht, hfree, hfaults⟩ := exec_endsBy i s
  exact ⟨t, ht, fun h => ⟨(hfree h).1.trans hrun, (hfree h).2⟩, hfaults⟩

/-- Settles O11: every branch of the clock answers, since every instruction does. -/
theorem everyClockAnswers : Obligations.EveryClockAnswers := exists_step_eq_next

/-- Settles O10: the clock halts at the fetch or in an instruction that faults; an unassigned word halts nothing. -/
theorem fatalFaultsArePrecise : Obligations.FatalFaultsArePrecise := by
  intro s t hrun h hhalted
  obtain ⟨hs, _⟩ | ⟨_, _, hstep⟩ | ⟨_, _, w, _, ⟨i, _, hstep⟩ | ⟨e, _, hstep⟩⟩ := step_cases s
  · exact absurd hs (by simp [hrun])
  · obtain rfl := raiseInvalidAddress_eq_next.mp (hstep.symm.trans h)
    exact ⟨_, FaultCause.noConfusion, abandonedWith_latchFault _ s⟩
  · exact exists_abandonedWith_of_exec_halts hrun (hstep.symm.trans h) hhalted
  · obtain rfl : _ = t := Host.Outcome.next.inj (hstep.symm.trans h)
    exact absurd (hrun.symm.trans hhalted) Bool.false_ne_true

/-- Settles O6: `step_of_decode_eq_ok`, for every state and instruction. -/
theorem stepRunsDecodedInstruction : Obligations.StepRunsDecodedInstruction := fun _ _ => step_of_decode_eq_ok

/-- Settles O8: the first address outside the memory is `PC`, or 0xFFF where only the second byte is outside. -/
theorem fetchOutsideMemoryFaults : Obligations.FetchOutsideMemoryFaults := by
  intro s hrun
  refine ⟨fun hpc => exists_step_abandonedWith_of_pc_outside hrun hpc, fun hpc => ?_⟩
  have hnat : s.pc.toNat = 0xFFE := by rw [hpc]; rfl
  simpa [hnat, memSize] using exists_step_abandonedWith_of_fetch_outside hrun (by rw [hnat]; decide)

/-- Settles O9: while halted the clock is one write of the status. -/
theorem haltedClockOnlyReports : Obligations.HaltedClockOnlyReports := fun s h =>
  ⟨_, step_of_halted h, rfl, unchangedExcept_setStatus s _⟩

end Sys2Proof

/-! The invariant of the machine (00_scope.md R14; 10_state.md R27, R29, R40, R141): what it does not speak of, the bounds each instruction keeps, and
its proof for a clock and for every schedule of host operations. -/

namespace Sys2Proof

open Sys2Proof.Machine

section Invariant

variable {s t u : State}

/-! ### Updates the invariant does not see -/

theorem Inv.setReg (h : Inv s) (x : Reg) (b : Byte) : Inv (s.setReg x b) :=
  ⟨h.memory, h.index, h.pc, h.slots, h.recorded, h.reported⟩

theorem Inv.setRegs (h : Inv s) (v : Vector Byte 16) : Inv (s.setRegs v) :=
  ⟨h.memory, h.index, h.pc, h.slots, h.recorded, h.reported⟩

theorem Inv.setFlagAndReg (h : Inv s) (flag : Bool) (x : Reg) (b : Byte) : Inv (s.setFlagAndReg flag x b) :=
  (h.setReg flagReg _).setReg x b

theorem Inv.setScreen (h : Inv s) (fb : Screen) : Inv (s.setScreen fb) :=
  ⟨h.memory, h.index, h.pc, h.slots, h.recorded, h.reported⟩

theorem Inv.setKeys (h : Inv s) (k : BitVec 16) : Inv (s.setKeys k) :=
  ⟨h.memory, h.index, h.pc, h.slots, h.recorded, h.reported⟩

theorem Inv.setDelayTimer (h : Inv s) (b : Byte) : Inv (s.setDelayTimer b) :=
  ⟨h.memory, h.index, h.pc, h.slots, h.recorded, h.reported⟩

theorem Inv.setSoundTimer (h : Inv s) (b : Byte) : Inv (s.setSoundTimer b) :=
  ⟨h.memory, h.index, h.pc, h.slots, h.recorded, h.reported⟩

theorem Inv.setHandshake (h : Inv s) (drawn ack : Bool) : Inv (s.setHandshake drawn ack) :=
  ⟨h.memory, h.index, h.pc, h.slots, h.recorded, h.reported⟩

theorem Inv.countDraw (h : Inv s) : Inv s.countDraw :=
  ⟨h.memory, h.index, h.pc, h.slots, h.recorded, h.reported⟩

/-! ### Updates it bounds -/

theorem Inv.setIndex (h : Inv s) {a : Addr} (ha : a.toNat ≤ 0xFFF) : Inv (s.setIndex a) :=
  ⟨h.memory, ha, h.pc, h.slots, h.recorded, h.reported⟩

theorem Inv.setMem (h : Inv s) {m : Memory} (hm : m.wf = true) : Inv (s.setMem m) :=
  ⟨hm, h.index, h.pc, h.slots, h.recorded, h.reported⟩

theorem Inv.writeBytes (h : Inv s) {a : Nat} {bs : List Byte} (hfit : a + bs.length ≤ memSize) :
    Inv (s.setMem (s.mem.writeBytes a bs)) :=
  h.setMem (Memory.wf_writeBytes bs h.memory hfit)

/-- A pop leaves fewer occupied slots. -/
theorem Inv.setStack_self (h : Inv s) {sp : Fin 17} (hsp : sp.val ≤ s.sp.val) : Inv (s.setStack s.stack sp) :=
  ⟨h.memory, h.index, h.pc, fun k hk => h.slots k (Nat.lt_of_lt_of_le hk hsp), h.recorded, h.reported⟩

/-- A push occupies one slot more, with an address that the invariant allows. -/
theorem Inv.push (h : Inv s) {k : Fin 16} (hk : s.sp.val = k.val) {a : Addr} (ha : a.toNat ≤ 0xFFD) :
    Inv (s.setStack (s.stack.set k a) k.succ) := by
  refine ⟨h.memory, h.index, h.pc, fun j hj => ?_, h.recorded, h.reported⟩
  by_cases hjk : j = k
  · simpa [hjk] using ha
  · have hne : k.val ≠ j.val := fun heq => hjk (Fin.ext heq.symm)
    have hlt : j.val < s.sp.val := by
      simp only [State.setStack_sp, Fin.val_succ] at hj
      omega
    simpa [Vector.getElem_set, hne] using h.slots j hlt

/-- While the core runs, `PC` moves inside its bound, whatever status is reported. -/
theorem Inv.setPc_setStatus (h : Inv s) (hrun : s.halted = false) {a : Addr} (ha : a.toNat ≤ 0x10FE) (r : StepStatus) :
    Inv ((s.setPc a).setStatus r) :=
  ⟨h.memory, h.index, ha, h.slots, fun hh => absurd (hrun.symm.trans hh) Bool.false_ne_true,
    fun hh => absurd (hrun.symm.trans hh) Bool.false_ne_true⟩

/-- A fatal fault records its cause and reports it. -/
theorem Inv.latchFault (h : Inv s) {c : FaultCause} (hc : c ≠ .none) : Inv (s.latchFault c) :=
  ⟨h.memory, h.index, h.pc, h.slots, fun _ => hc, fun _ => rfl⟩

/-! ### The ways an instruction ends, from an address that was fetched -/

theorem toNat_add_two_le {a : Addr} (ha : a.toNat ≤ 0xFFD) : (a + 2).toNat ≤ 0x10FE := by
  bv_omega

theorem toNat_add_four_le {a : Addr} (ha : a.toNat ≤ 0xFFD) : (a + 4).toNat ≤ 0x10FE := by
  bv_omega

theorem toNat_addrOf (nnn : BitVec 12) : (addrOf nnn).toNat = nnn.toNat :=
  BitVec.toNat_setWidth_of_le (by decide)

theorem toNat_addrOf_le (nnn : BitVec 12) : (addrOf nnn).toNat ≤ 0xFFF := by
  rw [toNat_addrOf]
  exact Nat.le_of_lt_succ nnn.isLt

/-- The target of `jump0` is the exact sum (R144): two summands of 12 and 8 bits do not reach 16 bits. -/
theorem toNat_addrOf_add_byteToAddr (nnn : BitVec 12) (b : Byte) : (addrOf nnn + byteToAddr b).toNat = nnn.toNat + b.toNat := by
  unfold addrOf byteToAddr
  bv_omega

/-- The address of the glyph of any byte fits in 16 bits (R195). -/
theorem toNat_fontAddress (b : Byte) : (BitVec.ofNat 16 (fontBase + b.toNat * 5)).toNat = b.toNat * 5 := by
  have hlt := b.isLt
  rw [fontBase, Nat.zero_add, BitVec.toNat_ofNat]
  omega

theorem Inv.of_advance (hu : Inv u) (hrun : u.halted = false) (hpc : u.pc.toNat ≤ 0xFFD) (h : advance u = .next t) : Inv t := by
  obtain rfl := advance_eq_next.mp h
  exact hu.setPc_setStatus hrun (toNat_add_two_le hpc) _

theorem Inv.of_transfer (hs : Inv s) (hrun : s.halted = false) {a : Addr} (ha : a.toNat ≤ 0x10FE) (h : transfer a s = .next t) : Inv t := by
  obtain rfl := transfer_eq_next.mp h
  exact hs.setPc_setStatus hrun ha _

theorem Inv.of_skipIf (hs : Inv s) (hrun : s.halted = false) (hpc : s.pc.toNat ≤ 0xFFD) {c : Bool} (h : skipIf c s = .next t) : Inv t := by
  obtain rfl := skipIf_eq_next.mp h
  refine hs.setPc_setStatus hrun ?_ _
  cases c
  · exact toNat_add_two_le hpc
  · exact toNat_add_four_le hpc

/-- An instruction that checks addresses: its effect is only claimed where the check passed. -/
theorem Inv.of_guard {inside outside : Prop} {a pc' : Addr} (hs : Inv s)
    (h : (inside ∧ t = (u.setPc pc').setStatus .ok) ∨ (outside ∧ t = s.latchFault (.invalidAddress a)))
    (hu : inside → Inv u) (hrun : u.halted = false) (hpc : pc'.toNat ≤ 0x10FE) : Inv t := by
  obtain ⟨hin, rfl⟩ | ⟨_, rfl⟩ := h
  · exact (hu hin).setPc_setStatus hrun hpc _
  · exact hs.latchFault FaultCause.noConfusion

/-- An instruction fetched from inside the memory keeps the invariant. -/
theorem exec_keeps_inv {i : Instr} (hs : Inv s) (hrun : s.halted = false) (hpc : s.pc.toNat ≤ 0xFFD) (h : exec i s = .next t) : Inv t := by
  have hnext := toNat_add_two_le hpc
  cases i
  case clear => exact (hs.setScreen _).of_advance hrun hpc h
  case loadImm | addImm | copy | or | and | xor | storeDelay => exact (hs.setReg _ _).of_advance hrun hpc h
  case addCarry | subBorrow | shiftRight | subBorrowRev | shiftLeft => exact (hs.setFlagAndReg _ _ _).of_advance hrun hpc h
  case random => exact (hs.setReg _ _).countDraw.of_advance hrun hpc h
  case setDelay x => exact (hs.setDelayTimer (s.reg x)).of_advance hrun hpc h
  case setSound x => exact (hs.setSoundTimer (s.reg x)).of_advance hrun hpc h
  case loadIndex nnn => exact (hs.setIndex (toNat_addrOf_le nnn)).of_advance hrun hpc h
  case fontAddress x =>
    have hindex : (BitVec.ofNat 16 (fontBase + (s.reg x).toNat * 5)).toNat ≤ 0xFFF := by
      have hlt := (s.reg x).isLt
      rw [toNat_fontAddress]
      omega
    exact (hs.setIndex hindex).of_advance hrun hpc h
  case jump nnn => exact hs.of_transfer hrun (Nat.le_trans (toNat_addrOf_le nnn) (by decide)) h
  case jump0 nnn =>
    have htarget : (addrOf nnn + byteToAddr (s.reg 0)).toNat ≤ 0x10FE := by
      have hlt := (s.reg 0).isLt
      rw [toNat_addrOf_add_byteToAddr]
      omega
    exact hs.of_transfer hrun htarget h
  case skipEqImm | skipNeImm | skipEqReg | skipNeReg | skipIfPressed | skipIfNotPressed => exact hs.of_skipIf hrun hpc h
  case waitKey x =>
    obtain ⟨_, _, rfl⟩ | ⟨_, rfl⟩ := execWaitKey_eq_next.mp h
    · exact (hs.setReg x _).setPc_setStatus hrun hnext _
    · exact hs.setPc_setStatus hrun hs.pc _
  case ret =>
    obtain ⟨hsp, rfl⟩ | ⟨_, rfl⟩ := execReturn_eq_next.mp h
    · have hslot := hs.slots ⟨s.sp.val - 1, by omega⟩ (Nat.sub_lt hsp Nat.one_pos)
      exact (hs.setStack_self (sp := ⟨s.sp.val - 1, by omega⟩) (Nat.sub_le _ _)).setPc_setStatus hrun (toNat_add_two_le hslot) _
    · exact hs.latchFault FaultCause.noConfusion
  case call nnn =>
    obtain ⟨hsp, rfl⟩ | ⟨_, rfl⟩ := execCall_eq_next.mp h
    · exact (hs.push (k := ⟨s.sp.val, hsp⟩) rfl hpc).setPc_setStatus hrun (Nat.le_trans (toNat_addrOf_le nnn) (by decide)) _
    · exact hs.latchFault FaultCause.noConfusion
  case draw =>
    obtain ⟨_, rfl⟩ | ⟨_, _, rfl⟩ := execDraw_eq_next.mp h
    · exact ((hs.setScreen _).setReg _ _).setPc_setStatus hrun hnext _
    · exact hs.latchFault FaultCause.noConfusion
  case addIndexFromReg x =>
    refine hs.of_guard (execAddIndexFromReg_eq_next.mp h) (fun hin => hs.setIndex ?_) hrun hnext
    unfold memSize at hin
    rw [BitVec.toNat_ofNat]
    omega
  case storeBcd => exact hs.of_guard (execStoreBcd_eq_next.mp h) (fun hin => hs.writeBytes hin) hrun hnext
  case storeRegsToMem x =>
    exact hs.of_guard (execStoreRegsToMem_eq_next.mp h) (fun hin => hs.writeBytes (by rwa [length_blockRegs])) hrun hnext
  case loadRegsFromMem => exact hs.of_guard (execLoadRegsFromMem_eq_next.mp h) (fun _ => hs.setRegs _) (by simpa using hrun) hnext

/-- A clock keeps the invariant: only an instruction or an unassigned word moves `PC`, and either was fetched from inside the memory. -/
theorem step_keeps_inv (hs : Inv s) (h : step s = .next t) : Inv t := by
  obtain ⟨hhalted, _⟩ | ⟨_, _, hstep⟩ | ⟨hrun, hinside, w, _, ⟨i, _, hstep⟩ | ⟨e, _, hstep⟩⟩ := step_cases s
  · obtain rfl : _ = t := Host.Outcome.next.inj ((step_of_halted hhalted).symm.trans h)
    exact ⟨hs.memory, hs.index, hs.pc, hs.slots, hs.recorded, fun _ => rfl⟩
  · obtain rfl := raiseInvalidAddress_eq_next.mp (hstep.symm.trans h)
    exact hs.latchFault FaultCause.noConfusion
  · unfold memSize at hinside
    exact exec_keeps_inv hs hrun (by omega) (hstep.symm.trans h)
  · obtain rfl : _ = t := Host.Outcome.next.inj (hstep.symm.trans h)
    unfold memSize at hinside
    exact hs.setPc_setStatus hrun (toNat_add_two_le (by omega)) _

/-! ### Schedules of host operations (R14, R270) -/

/-- A property that every operation of a schedule keeps holds after the schedule. -/
theorem runOps_induction {P : State → Prop} {ops : List HostOp} (hops : ∀ op ∈ ops, ∀ u, P u → P (operate op u).1) (hs : P s) :
    P (runOps ops s) := by
  induction ops generalizing s with
  | nil => exact hs
  | cons op ops ih => exact ih (fun op' hmem => hops op' (List.mem_cons_of_mem op hmem)) (hops op List.mem_cons_self s hs)

/-- The state after the host's clock is the state after the step. -/
theorem step_eq_next_operate_clock (s : State) : step s = .next (operate .clock s).1 := by
  obtain ⟨t, ht⟩ := exists_step_eq_next s
  simp [operate, clock, ht]

theorem operate_load (bytes : List Byte) (s : State) : operate (.load bytes) s = ((load bytes s).1, .loaded (load bytes s).2) := rfl

theorem inv_reset : Inv State.reset :=
  ⟨Memory.wf_reset, by decide, by decide, fun _ hk => absurd hk (Nat.not_lt_zero _), Bool.noConfusion, Bool.noConfusion⟩

/-- The host's reset keeps only parts that the invariant does not see. -/
theorem inv_resetBy (s : State) : Inv (resetBy s) :=
  ⟨inv_reset.memory, inv_reset.index, inv_reset.pc, inv_reset.slots, inv_reset.recorded, inv_reset.reported⟩

theorem Inv.load (hs : Inv s) (bytes : List Byte) : Inv (load bytes s).1 := by
  by_cases hfit : progBase + bytes.length ≤ memSize
  · rw [load_of_fits hfit]
    exact hs.writeBytes hfit
  · rw [load_of_too_large (Nat.lt_of_not_le hfit)]
    exact hs

theorem operate_keeps_inv (op : HostOp) (hs : Inv s) : Inv (operate op s).1 := by
  cases op with
  | reset => exact inv_resetBy s
  | load bytes =>
    simp only [operate_load]
    exact hs.load bytes
  | clock => exact step_keeps_inv hs (step_eq_next_operate_clock s)
  | tick => exact (((hs.setDelayTimer _).setSoundTimer _).setKeys _).setHandshake _ _
  | setKey k p => exact hs.setKeys _
  | acknowledgeDraw => exact hs.setHandshake _ _
  | drawReady | framebuffer | delay | sound => exact hs

end Invariant

/-! ### The obligations of the family -/

/-- Settles O15: memory lists nothing, no slot is occupied, and the core is not halted. -/
theorem resetMeetsInvariant : Obligations.ResetMeetsInvariant := inv_reset

/-- Settles O16: `step_keeps_inv`, for all states. -/
theorem stepKeepsInvariant : Obligations.StepKeepsInvariant := fun _ _ => step_keeps_inv

/-- Settles O17: every operation keeps the invariant, so every schedule does. -/
theorem hostSchedulesKeepInvariant : Obligations.HostSchedulesKeepInvariant := fun _ _ =>
  runOps_induction fun op _ _ => operate_keeps_inv op

end Sys2Proof

/-! What instructions do not read (10_state.md R7, R36, column 'read by' of R20): the level of LEGACY_SHIFT, `ST`, `DT`. Two states that differ in
these alone are led by an instruction that has no business with them to states that differ in these alone. -/

namespace Sys2Proof

open Sys2Proof.Machine

/-- `s` with other values in the three parts that hardly any instruction reads. -/
def State.withUnread (s : State) (level : Bool) (st dt : Byte) : State := { s with legacyShift := level, st := st, dt := dt }

/-- The instructions that read or write the LEGACY_SHIFT level or a timer (R20). -/
def touchesUnread (i : Instr) : Bool :=
  match i with
  | .shiftRight _ _ => true
  | .shiftLeft _ _ => true
  | .storeDelay _ => true
  | .setDelay _ => true
  | .setSound _ => true
  | _ => false

section Unread

variable {s t : State} {i : Instr} {b : Byte}

/-- Every other instruction computes the same from either state, since no operand, effect or branch of it looks at the three parts:
where it branches, the condition of either branch is the same and `hmap` carries its effect over. -/
theorem exec_withUnread (level : Bool) (st dt : Byte) (h : exec i s = .next t) (hi : touchesUnread i = false) :
    exec i (State.withUnread s level st dt) = .next (State.withUnread t level st dt) := by
  have hmap {u : State} (htu : t = u) : State.withUnread t level st dt = State.withUnread u level st dt := by rw [htu]
  cases i
  case shiftRight | shiftLeft | storeDelay | setDelay | setSound => exact absurd hi (by simp [touchesUnread])
  case clear | loadImm | addImm | copy | or | and | xor | addCarry | subBorrow | subBorrowRev | loadIndex | random | fontAddress =>
    obtain rfl := advance_eq_next.mp h
    rfl
  case jump | jump0 =>
    obtain rfl := transfer_eq_next.mp h
    rfl
  case skipEqImm | skipNeImm | skipEqReg | skipNeReg | skipIfPressed | skipIfNotPressed =>
    obtain rfl := skipIf_eq_next.mp h
    exact skipIf_eq_next.mpr rfl
  case waitKey =>
    exact execWaitKey_eq_next.mpr ((execWaitKey_eq_next.mp h).imp (Exists.imp fun _ => And.imp_right hmap) (And.imp_right hmap))
  case ret => exact execReturn_eq_next.mpr ((execReturn_eq_next.mp h).imp (Exists.imp fun _ => hmap) (And.imp_right hmap))
  case call => exact execCall_eq_next.mpr ((execCall_eq_next.mp h).imp (Exists.imp fun _ => hmap) (And.imp_right hmap))
  case draw =>
    exact execDraw_eq_next.mpr ((execDraw_eq_next.mp h).imp (And.imp_right hmap) (And.imp_right (And.imp_right hmap)))
  case addIndexFromReg =>
    exact execAddIndexFromReg_eq_next.mpr ((execAddIndexFromReg_eq_next.mp h).imp (And.imp_right hmap) (And.imp_right hmap))
  case storeBcd => exact execStoreBcd_eq_next.mpr ((execStoreBcd_eq_next.mp h).imp (And.imp_right hmap) (And.imp_right hmap))
  case storeRegsToMem =>
    exact execStoreRegsToMem_eq_next.mpr ((execStoreRegsToMem_eq_next.mp h).imp (And.imp_right hmap) (And.imp_right hmap))
  case loadRegsFromMem =>
    exact execLoadRegsFromMem_eq_next.mpr ((execLoadRegsFromMem_eq_next.mp h).imp (And.imp_right hmap) (And.imp_right hmap))

theorem st_dt_not_mem_mayWrite (hi : touchesUnread i = false) : .st ∉ mayWrite i ∧ .dt ∉ mayWrite i := by
  cases i <;> simp_all [touchesUnread, mayWrite, faultParts]

/-! ### One part at a time: the two others are as they were, since the instruction does not write them -/

theorem exec_with_legacyShift_of_untouched (h : exec i s = .next t) (hi : touchesUnread i = false) (level : Bool) :
    exec i { s with legacyShift := level } = .next { t with legacyShift := level } := by
  have hst : t.st = s.st := exec_unchangedExcept h .st (st_dt_not_mem_mayWrite hi).1
  have hdt : t.dt = s.dt := exec_unchangedExcept h .dt (st_dt_not_mem_mayWrite hi).2
  simpa only [State.withUnread, hst, hdt] using exec_withUnread level s.st s.dt h hi

theorem exec_with_st_of_untouched (h : exec i s = .next t) (hi : touchesUnread i = false) (b : Byte) :
    exec i { s with st := b } = .next { t with st := b } := by
  have hlevel : t.legacyShift = s.legacyShift := exec_unchangedExcept h .legacyShift (hostOwned_not_mem_mayWrite i).2.2
  have hdt : t.dt = s.dt := exec_unchangedExcept h .dt (st_dt_not_mem_mayWrite hi).2
  simpa only [State.withUnread, hlevel, hdt] using exec_withUnread s.legacyShift b s.dt h hi

theorem exec_with_dt_of_untouched (h : exec i s = .next t) (hi : touchesUnread i = false) (b : Byte) :
    exec i { s with dt := b } = .next { t with dt := b } := by
  have hlevel : t.legacyShift = s.legacyShift := exec_unchangedExcept h .legacyShift (hostOwned_not_mem_mayWrite i).2.2
  have hst : t.st = s.st := exec_unchangedExcept h .st (st_dt_not_mem_mayWrite hi).1
  simpa only [State.withUnread, hlevel, hst] using exec_withUnread s.legacyShift s.st b h hi

theorem exec_with_legacyShift (h : exec i s = .next t) (hright : ∀ x y, i ≠ .shiftRight x y) (hleft : ∀ x y, i ≠ .shiftLeft x y)
    (level : Bool) : exec i { s with legacyShift := level } = .next { t with legacyShift := level } := by
  cases i
  case shiftRight x y => exact absurd rfl (hright x y)
  case shiftLeft x y => exact absurd rfl (hleft x y)
  case storeDelay | setDelay | setSound =>
    obtain rfl := advance_eq_next.mp h
    rfl
  all_goals exact exec_with_legacyShift_of_untouched h rfl level

theorem exec_with_st (h : exec i s = .next t) (hload : ∀ x, i ≠ .setSound x) (b : Byte) :
    exec i { s with st := b } = .next { t with st := b } := by
  cases i
  case setSound x => exact absurd rfl (hload x)
  case shiftRight | shiftLeft | storeDelay | setDelay =>
    obtain rfl := advance_eq_next.mp h
    rfl
  all_goals exact exec_with_st_of_untouched h rfl b

theorem exec_with_dt (h : exec i s = .next t) (hload : ∀ x, i ≠ .setDelay x) (hread : ∀ x, i ≠ .storeDelay x) (b : Byte) :
    exec i { s with dt := b } = .next { t with dt := b } := by
  cases i
  case setDelay x => exact absurd rfl (hload x)
  case storeDelay x => exact absurd rfl (hread x)
  case shiftRight | shiftLeft | setSound =>
    obtain rfl := advance_eq_next.mp h
    rfl
  all_goals exact exec_with_dt_of_untouched h rfl b

end Unread

/-! ### Schedules of host operations keep the level (R7, R270) -/

theorem unchangedExcept_load (bytes : List Byte) (s : State) : UnchangedExcept [.mem] s (load bytes s).1 := by
  by_cases hfit : progBase + bytes.length ≤ memSize
  · rw [load_of_fits hfit]
    exact unchangedExcept_setMem s _
  · rw [load_of_too_large (Nat.lt_of_not_le hfit)]
    exact UnchangedExcept_mono (unchangedExcept_refl s) (List.forall_mem_nil _)

theorem operate_legacyShift (op : HostOp) (s : State) : (operate op s).1.legacyShift = s.legacyShift := by
  cases op with
  | clock => exact step_legacyShift (step_eq_next_operate_clock s)
  | load bytes =>
    simp only [operate_load]
    exact unchangedExcept_load bytes s .legacyShift (by decide)
  | reset | tick | setKey | drawReady | framebuffer | acknowledgeDraw | delay | sound => rfl

/-! ### The obligations of the family -/

/-- Settles O18: every operation keeps the level, and `exec_with_legacyShift` covers all instructions but the shifts. -/
theorem onlyShiftsReadLegacyShift : Obligations.OnlyShiftsReadLegacyShift :=
  ⟨fun _ s => runOps_induction (P := fun u => u.legacyShift = s.legacyShift) (fun op _ u hu => (operate_legacyShift op u).trans hu) rfl,
    fun _ _ _ level hright hleft h => exec_with_legacyShift h hright hleft level⟩

/-- Settles O47: a timer is overwritten by its own load, whatever it held, and left unread by the others but `store-delay`. -/
theorem onlyStoreDelayReadsATimer : Obligations.OnlyStoreDelayReadsATimer := by
  intro i s t b h
  refine ⟨fun hload => exec_with_st h hload b, fun hload hread => exec_with_dt h hload hread b, ?_, ?_⟩
  iterate 2
    rintro ⟨x, rfl⟩
    obtain rfl := advance_eq_next.mp h
    rfl

end Sys2Proof

/-! Host operations, reset and the end of a run (48_host_operations.md R270 to R285; 10_state.md R46; 00_scope.md R16): the frame of each
operation, and what a whole schedule keeps. -/

namespace Sys2Proof

open Sys2Proof.Machine

/-- The parts that the operations between clocks write, `load` and reset apart (R276, R277, R279). -/
def hostParts : List Part := [.dt, .st, .key, .drawn, .ack]

section Schedules

variable {s t u : State} {ps : List Part} {ops : List HostOp}

/-! ### Frames of the operations -/

theorem unchangedExcept_setKey (k : Fin 16) (p : Bool) (s : State) : UnchangedExcept [.key] s (setKey k p s) := by
  intro q hq
  cases q <;> simp_all [Part.same, setKey]

theorem unchangedExcept_acknowledgeDraw (s : State) : UnchangedExcept [.ack] s (acknowledgeDraw s) := by
  intro p hp
  cases p <;> simp_all [Part.same, acknowledgeDraw]

/-- Between clocks, loads and resets the host writes its own parts only. -/
theorem operate_unchangedExcept_hostParts {op : HostOp} (hreset : op ≠ .reset) (hload : ∀ bytes, op ≠ .load bytes) (hclock : op ≠ .clock)
    (s : State) : UnchangedExcept hostParts s (operate op s).1 := by
  cases op with
  | reset => exact absurd rfl hreset
  | load bytes => exact absurd rfl (hload bytes)
  | clock => exact absurd rfl hclock
  | tick => exact unchangedExcept_tick s
  | setKey k p => exact UnchangedExcept_mono (unchangedExcept_setKey k p s) (by decide)
  | acknowledgeDraw => exact UnchangedExcept_mono (unchangedExcept_acknowledgeDraw s) (by decide)
  | drawReady | framebuffer | delay | sound => exact UnchangedExcept_mono (unchangedExcept_refl s) (List.forall_mem_nil _)

theorem operate_clock_of_halted (h : s.halted = true) : (operate .clock s).1 = s.setStatus (.fault s.fault) :=
  Host.Outcome.next.inj ((step_eq_next_operate_clock s).symm.trans (step_of_halted h))

/-- While halted no operation but reset runs anything. -/
theorem operate_unchangedExcept_of_halted {op : HostOp} (hreset : op ≠ .reset) (h : s.halted = true) :
    UnchangedExcept (.mem :: .status :: hostParts) s (operate op s).1 := by
  by_cases hload : ∃ bytes, op = .load bytes
  · obtain ⟨bytes, rfl⟩ := hload
    simp only [operate_load]
    exact UnchangedExcept_mono (unchangedExcept_load bytes s) (by decide)
  by_cases hclock : op = .clock
  · rw [hclock, operate_clock_of_halted h]
    exact UnchangedExcept_mono (unchangedExcept_setStatus s _) (by decide)
  · have hframe := operate_unchangedExcept_hostParts hreset (fun bytes hop => hload ⟨bytes, hop⟩) hclock s
    exact UnchangedExcept_mono hframe (by decide)

/-- `DRAWN` without `ACK` is kept by every operation but the acknowledgement and reset (R280). -/
theorem operate_keeps_drawn {op : HostOp} (hack : op ≠ .acknowledgeDraw) (hreset : op ≠ .reset) (h : s.drawn = true ∧ s.ack = false) :
    (operate op s).1.drawn = true ∧ (operate op s).1.ack = false := by
  obtain ⟨hdrawn, hnot⟩ := h
  cases op with
  | reset => exact absurd rfl hreset
  | acknowledgeDraw => exact absurd rfl hack
  | load bytes =>
    have hframe := unchangedExcept_load bytes s
    simp only [operate_load]
    exact ⟨(hframe .drawn (by decide)).trans hdrawn, (hframe .ack (by decide)).trans hnot⟩
  | clock =>
    have hstep := step_eq_next_operate_clock s
    exact ⟨step_keeps_drawn hstep hdrawn, (step_ack hstep).trans hnot⟩
  | tick => exact ⟨by simp [operate, hdrawn, hnot], rfl⟩
  | setKey | drawReady | framebuffer | delay | sound => exact ⟨hdrawn, hnot⟩

/-! ### Frames of schedules -/

/-- A frame kept by each operation of a schedule, under a condition that the framed parts decide, is kept by the schedule. -/
theorem runOps_unchangedExcept {P : State → Prop} (hP : ∀ {u v}, UnchangedExcept ps u v → P u → P v)
    (hops : ∀ op ∈ ops, ∀ u, P u → UnchangedExcept ps u (operate op u).1) (hs : P s) : UnchangedExcept ps s (runOps ops s) := by
  have hkept : P (runOps ops s) ∧ UnchangedExcept ps s (runOps ops s) :=
    runOps_induction (P := fun u => P u ∧ UnchangedExcept ps s u)
      (fun op hop u ⟨hu, hframe⟩ =>
        have hstep := hops op hop u hu
        ⟨hP hstep hu, fun p hp => Part.same_trans (hframe p hp) (hstep p hp)⟩)
      ⟨hs, UnchangedExcept_mono (unchangedExcept_refl s) (List.forall_mem_nil _)⟩
  exact hkept.2

/-! ### The end of a run (R16) -/

/-- The phase of a run is decided by `HALTED`, `PC` and what memory reads. -/
theorem runPhase_of_unchangedExcept (h : UnchangedExcept (.status :: hostParts) s t) : runPhase t = runPhase s := by
  have hhalted : t.halted = s.halted := h .halted (by decide)
  have hpc : t.pc = s.pc := h .pc (by decide)
  have hmem : ∀ a, t.mem.read a = s.mem.read a := h .mem (by decide)
  have hfetch : fetch t = fetch s := by rw [fetch, fetch, hpc, hmem, hmem]
  have hself : atSelfJump t = atSelfJump s := by rw [atSelfJump, atSelfJump, hfetch, hpc]
  rw [runPhase, runPhase, hhalted, hself]

theorem atSelfJump_iff :
    atSelfJump s = true ↔ s.pc.toNat ≤ 0xFFD ∧ ∃ nnn : BitVec 12, decode (wordAtPc s) = .ok (.jump nnn) ∧ nnn.toNat = s.pc.toNat := by
  have htarget (nnn : BitVec 12) : addrOf nnn = s.pc ↔ nnn.toNat = s.pc.toNat := by rw [← BitVec.toNat_inj, toNat_addrOf]
  rw [atSelfJump_eq_true]
  constructor
  · rintro ⟨w, nnn, hfetch, hdecode, hself⟩
    obtain ⟨hinside, rfl⟩ := fetch_eq_ok.mp hfetch
    exact ⟨by unfold memSize at hinside; omega, nnn, hdecode, (htarget nnn).mp hself⟩
  · rintro ⟨hpc, nnn, hdecode, hself⟩
    exact ⟨wordAtPc s, nnn, fetch_eq_wordAtPc hpc, hdecode, (htarget nnn).mpr hself⟩

/-- A clock at a `jump` to itself transfers to the `PC` it started from. -/
theorem step_of_finished (h : runPhase s = .finished) : step s = .next (s.setStatus .ok) := by
  obtain ⟨hrun, hself⟩ := runPhase_eq_finished.mp h
  obtain ⟨w, nnn, hfetch, hdecode, htarget⟩ := atSelfJump_eq_true.mp hself
  obtain rfl := eq_wordAtPc_of_fetch_eq_ok hfetch
  have hstep : step s = transfer (addrOf nnn) s := by simp [step, hrun, hfetch, hdecode, exec, execJump]
  rw [hstep, htarget]
  rfl

/-- In either ended phase a clock changes the status at most. -/
theorem operate_clock_of_ended (h : runPhase s ≠ .running) : UnchangedExcept [.status] s (operate .clock s).1 := by
  cases hphase : runPhase s with
  | running => exact absurd hphase h
  | finished =>
    rw [← Host.Outcome.next.inj ((step_of_finished hphase).symm.trans (step_eq_next_operate_clock s))]
    exact unchangedExcept_setStatus s _
  | faulted =>
    rw [operate_clock_of_halted (runPhase_eq_faulted.mp hphase)]
    exact unchangedExcept_setStatus s _

theorem operate_unchangedExcept_of_ended {op : HostOp} (hreset : op ≠ .reset) (hload : ∀ bytes, op ≠ .load bytes)
    (h : runPhase s ≠ .running) : UnchangedExcept (.status :: hostParts) s (operate op s).1 := by
  by_cases hclock : op = .clock
  · exact hclock ▸ UnchangedExcept_mono (operate_clock_of_ended h) (by decide)
  · exact UnchangedExcept_mono (operate_unchangedExcept_hostParts hreset hload hclock s) (by decide)

/-! ### Keys and reset values (R277, R46) -/

theorem getLsbD_keysWith (key : BitVec 16) (k j : Fin 16) (p : Bool) :
    (keysWith key k p).getLsbD j.val = if j = k then p else key.getLsbD j.val := by
  by_cases hjk : j = k
  · cases p <;> simp [keysWith, hjk]
  · have hne : ¬ j.val = k.val := fun heq => hjk (Fin.ext heq)
    cases p <;> simp [keysWith, hjk, hne]

theorem unlisted_of_lt {a : Nat} (ha : a < 80) : unlisted a = font.getD a 0 := by
  simp [unlisted, fontBase, ha]

theorem unlisted_of_ge {a : Nat} (ha : 80 ≤ a) : unlisted a = 0 := by
  simp [unlisted, fontBase, ha]

end Schedules

/-! ### The obligations of the family -/

/-- Settles O56: every operation of the schedule keeps `DRAWN` set and `ACK` clear. -/
theorem drawnStaysUntilAcknowledged : Obligations.DrawnStaysUntilAcknowledged := fun _ _ hack hreset hdrawn hnot =>
  runOps_induction (P := fun u => u.drawn = true ∧ u.ack = false)
    (fun _ hop _ => operate_keeps_drawn (ne_of_mem_of_not_mem hop hack) (ne_of_mem_of_not_mem hop hreset)) ⟨hdrawn, hnot⟩

/-- Settles O57: `HALTED` is in the frame that every operation keeps while it is set. -/
theorem onlyResetLeavesHalted : Obligations.OnlyResetLeavesHalted := by
  intro ops s hreset hhalted
  have hframe : UnchangedExcept (.mem :: .status :: hostParts) s (runOps ops s) :=
    runOps_unchangedExcept (P := fun u => u.halted = true) (fun h hu => (h .halted (by decide)).trans hu)
      (fun _ hop _ => operate_unchangedExcept_of_halted (ne_of_mem_of_not_mem hop hreset)) hhalted
  exact ⟨(hframe .halted (by decide)).trans hhalted, UnchangedExcept_mono hframe (by decide)⟩

/-- Settles O59: one clock in either phase, and the phase is in the frame that every operation keeps. -/
theorem endedRunStaysEnded : Obligations.EndedRunStaysEnded := by
  refine ⟨fun s h => ⟨_, step_of_finished h, rfl, unchangedExcept_setStatus s _⟩,
    fun s h => ⟨_, step_of_halted (runPhase_eq_faulted.mp h), rfl, unchangedExcept_setStatus s _⟩, fun ops s hreset hload hended => ?_⟩
  have hframe : UnchangedExcept (.status :: hostParts) s (runOps ops s) :=
    runOps_unchangedExcept (P := fun u => runPhase u ≠ .running) (fun h hu => runPhase_of_unchangedExcept h ▸ hu)
      (fun _ hop _ => operate_unchangedExcept_of_ended (ne_of_mem_of_not_mem hop hreset)
        fun bytes => ne_of_mem_of_not_mem hop (hload bytes)) hended
  exact ⟨runPhase_of_unchangedExcept hframe, UnchangedExcept_mono hframe (by decide)⟩

/-- Settles O60: `atSelfJump_iff` beside `HALTED`. -/
theorem finishedMeansAtASelfJump : Obligations.FinishedMeansAtASelfJump := fun _ =>
  runPhase_eq_finished.trans (and_congr_right fun _ => atSelfJump_iff)

/-- Settles O55: one key bit is set or cleared, `ACK` is set, and the reads answer the state they were given. -/
theorem keysAcknowledgeAndReads : Obligations.KeysAcknowledgeAndReads := fun s =>
  ⟨fun k j p => ⟨getLsbD_keysWith s.key k j p, unchangedExcept_setKey k p s⟩, ⟨rfl, unchangedExcept_acknowledgeDraw s⟩,
    rfl, rfl, rfl, rfl⟩

/-- Settles O58: both states have the reset value in every part named, and memory reads as unlisted. -/
theorem resetValues : Obligations.ResetValues := by
  rintro s t (rfl | rfl)
  iterate 2
    exact ⟨fun r => Vector.getElem_replicate r.isLt, rfl, rfl, rfl, fun k => Vector.getElem_replicate k.isLt, fun _ => unlisted_of_lt,
      fun _ => unlisted_of_ge, fun k => Vector.getElem_replicate k.isLt, rfl, rfl, rfl, rfl, rfl, rfl, rfl⟩

end Sys2Proof

/-! Single instructions and pairs of them: flow, shifts, index, random, keys, timers, block moves (41_screen_flow_skip.md R144, R150;
42_load_alu_shift.md R175 to R180; 43_index_font_random.md; 45_key_timer.md; 46_memory_block.md R257; 20_memory.md R78). -/

namespace Sys2Proof

open Sys2Proof.Machine

/-! ### Flow (R144, R150) -/

/-- Settles O27: `jump0` is one transfer, to a sum that 16 bits hold. -/
theorem jumpZeroAddsVZero : Obligations.JumpZeroAddsVZero := fun nnn s =>
  ⟨wordMeans_of_toNat_encode (toNat_formatNNN 0xB nnn), _, _, rfl, (unchangedExcept_refl s).transfersTo _,
    toNat_addrOf_add_byteToAddr nnn (s.reg 0)⟩

/-- Settles O30: the slot that the `call` filled is the one that `return` pops at the depth after it. -/
theorem balancedCallAndReturn : Obligations.BalancedCallAndReturn := by
  intro nnn s t u k hsp hcall hdepth hslot
  obtain rfl : _ = t := Host.Outcome.next.inj ((exec_call_of_sp_eq hsp nnn).symm.trans hcall)
  have hu : u.sp.val = k.val + 1 := congrArg Fin.val hdepth
  refine ⟨_, exec_ret_of_sp_eq hu, ?_, Fin.ext hsp.symm, rfl⟩
  simp [hslot]

/-! ### Arithmetic and shifts (R175, R176, R178, R180) -/

theorem toNat_flagByte (flag : Bool) : (flagByte flag).toNat = flag.toNat := by
  cases flag <;> rfl

theorem toNat_outRight (src : Byte) : (flagByte (outRight src)).toNat = src.toNat % 2 := by
  rw [toNat_flagByte, outRight, BitVec.getLsbD, Nat.testBit_zero]
  rcases Nat.mod_two_eq_zero_or_one src.toNat with h | h <;> simp [h]

theorem toNat_outLeft (src : Byte) : (flagByte (outLeft src)).toNat = src.toNat / 128 := by
  have hlt := src.isLt
  have hbit : outLeft src = decide (128 ≤ src.toNat) := BitVec.msb_eq_decide src
  rw [toNat_flagByte, hbit]
  by_cases h : 128 ≤ src.toNat
  · simp [h]; omega
  · simp [h]; omega

/-- Settles O35: either shift writes the bit shifted out and then the shifted source. -/
theorem shiftsOfTheSelectedSource : Obligations.ShiftsOfTheSelectedSource := by
  rintro x y s src rfl
  constructor
  · obtain ⟨t, ht, hcompletes, hresult, hflag, hothers⟩ :=
      exists_advance_setFlagAndReg s (outRight (shiftSource s x y)) x (shiftSource s x y >>> 1)
    refine ⟨t, ht, hcompletes, ?_, fun hx => ?_, hothers⟩
    · rw [hresult, BitVec.toNat_ushiftRight, Nat.shiftRight_eq_div_pow]
      rfl
    · rw [hflag hx, toNat_outRight]
      rfl
  · obtain ⟨t, ht, hcompletes, hresult, hflag, hothers⟩ :=
      exists_advance_setFlagAndReg s (outLeft (shiftSource s x y)) x (shiftSource s x y <<< 1)
    refine ⟨t, ht, hcompletes, ?_, fun hx => ?_, hothers⟩
    · rw [hresult, BitVec.toNat_shiftLeft, Nat.shiftLeft_eq]
      rfl
    · rw [hflag hx, toNat_outLeft]
      rfl

/-- Subtracting what was added borrows exactly when the addition carried. -/
theorem noBorrow_add_self (a b : Byte) : noBorrow (a + b) b = !carryOut a b := by
  unfold noBorrow carryOut
  rw [← decide_not, decide_eq_decide]
  bv_omega

theorem flagByte_eq_one_iff (flag : Bool) : flagByte flag = 1 ↔ flag = true := by
  cases flag <;> decide

theorem flagByte_eq_zero_iff (flag : Bool) : flagByte flag = 0 ↔ flag = false := by
  cases flag <;> decide

/-- Settles O36: `Vy` survives the addition, and the difference and its flag undo the sum and its carry. -/
theorem addThenSubtractRestores : Obligations.AddThenSubtractRestores := by
  intro x y s t hxy hx hy h
  obtain ⟨t', ht', _, hsum, hcarry, hothers⟩ := exists_advance_setFlagAndReg s (carryOut (s.reg x) (s.reg y)) x (s.reg x + s.reg y)
  obtain rfl : t' = t := Host.Outcome.next.inj (ht'.symm.trans h)
  have hvy : t'.reg y = s.reg y := hothers y hxy.symm hy
  obtain ⟨u, hu, _, hdiff, hborrow, _⟩ := exists_advance_setFlagAndReg t' (noBorrow (t'.reg x) (t'.reg y)) x (t'.reg x - t'.reg y)
  refine ⟨u, hu, ?_, ?_⟩
  · rw [hdiff, hsum, hvy, BitVec.add_sub_cancel]
  · rw [hborrow hx, hcarry hx, hsum, hvy, noBorrow_add_self, flagByte_eq_one_iff, flagByte_eq_zero_iff, Bool.not_eq_true']

/-! ### Index and random (R190, R192, R195, R199) -/

/-- Settles O37: both are one write of `I`, of a number that 16 bits hold. -/
theorem indexLoads : Obligations.IndexLoads :=
  ⟨fun nnn s => ⟨_, rfl, (unchangedExcept_setIndex s _).completesWith (by decide), toNat_addrOf nnn⟩,
    fun x s => ⟨_, rfl, (unchangedExcept_setIndex s _).completesWith (by decide), toNat_fontAddress (s.reg x)⟩⟩

/-- Settles O38: the sum is exact inside the memory, and for every reachable `I` it fits the info field outside. -/
theorem addIndexIsChecked : Obligations.AddIndexIsChecked := by
  intro x s
  have hlt := (s.reg x).isLt
  refine ⟨fun hin => ?_, fun hout => ?_⟩
  · refine ⟨_, execAddIndexFromReg_eq_next.mpr (.inl ⟨by unfold memSize; omega, rfl⟩),
      (unchangedExcept_setIndex s _).completesWith (by decide), ?_⟩
    exact (BitVec.toNat_ofNat _ _).trans (Nat.mod_eq_of_lt (by omega))
  · refine ⟨_, _, execAddIndexFromReg_eq_next.mpr (.inr ⟨by unfold memSize; omega, rfl⟩), abandonedWith_latchFault _ s, fun hindex => ?_⟩
    exact (BitVec.toNat_ofNat _ _).trans (Nat.mod_eq_of_lt (by omega))

/-- Settles O39: the sample is masked before it is written, and the count of samples is the only other effect. -/
theorem randomIsAMaskedSample : Obligations.RandomIsAMaskedSample := by
  intro x nn s
  have hframe : UnchangedExcept [.regs, .draws] s (s.setReg x (Config.rand s.draws &&& nn)).countDraw :=
    (unchangedExcept_setReg s x _).trans (unchangedExcept_countDraw _)
  have hvx : (s.setReg x (Config.rand s.draws &&& nn)).reg x = Config.rand s.draws &&& nn := by simp
  refine ⟨_, rfl, hframe.completesWith (by decide), hvx, ?_, rfl, fun r hr => (State.reg_setReg s x _ r).trans (if_neg hr)⟩
  refine (congrArg (· &&& ~~~nn) hvx).trans ?_
  simp [BitVec.and_assoc]

/-! ### Keys and timers (R230, R231, R240 to R242) -/

/-- Settles O44: both are skips on the key that the low four bits name. -/
theorem keySkips : Obligations.KeySkips := by
  intro x s
  refine ⟨exists_skipIf_transfersTo rfl, exists_skipIf_transfersTo ?_⟩
  change (if (!s.key.getLsbD ((s.reg x).toNat % 16)) = true then s.pc + 4 else s.pc + 2) = _
  cases s.key.getLsbD ((s.reg x).toNat % 16) <;> rfl

/-- Settles O46: each is one write, of a register or of a timer. -/
theorem timerMoves : Obligations.TimerMoves := fun x s =>
  ⟨⟨wordMeans_of_encode_eq_formatXNN (nn := 0x07) rfl, wordMeans_of_encode_eq_formatXNN (nn := 0x15) rfl,
      wordMeans_of_encode_eq_formatXNN (nn := 0x18) rfl⟩,
    exists_advance_setReg s x s.dt, ⟨_, rfl, (unchangedExcept_setDelayTimer s _).completesWith (by decide), rfl⟩,
    ⟨_, rfl, (unchangedExcept_setSoundTimer s _).completesWith (by decide), rfl⟩⟩

/-! ### Block moves (R78, R257) -/

/-- What a block store whose block lies inside a canonical memory leaves (R250). -/
theorem completesWith_of_exec_storeRegsToMem {x : Reg} {s t : State} (hwf : s.mem.wf = true) (hfit : s.index.toNat + x.val ≤ 0xFFE)
    (h : exec (.storeRegsToMem x) s = .next t) :
    CompletesWith [.mem] s t ∧ ∀ k : Reg, k ≤ x → t.mem.read (dataAddr s k.val) = s.reg k := by
  obtain ⟨t', ht', hcompletes, _, hstored⟩ := (blockStore x s).2.1 hfit
  obtain rfl : t' = t := Host.Outcome.next.inj (ht'.symm.trans h)
  exact ⟨hcompletes, hstored hwf⟩

/-- Settles O49: the two bytes at the next `PC` are the two registers stored there. -/
theorem nextFetchSeesTheStore : Obligations.NextFetchSeesTheStore := by
  intro x k m s t hwf hpc hfit hmx hm haddr h
  obtain ⟨hcompletes, hstored⟩ := completesWith_of_exec_storeRegsToMem hwf hfit h
  have hnext : t.pc.toNat = s.pc.toNat + 2 := by
    rw [hcompletes.pc]
    bv_omega
  have hkx : k.val ≤ x.val := by
    have hmx' : m.val ≤ x.val := hmx
    omega
  have hhi : t.mem.read t.pc.toNat = s.reg k := by
    rw [hnext, ← haddr]
    exact hstored k hkx
  have hlo : t.mem.read (t.pc.toNat + 1) = s.reg m := by
    have haddr' : dataAddr s m.val = t.pc.toNat + 1 := by
      unfold dataAddr at haddr ⊢
      omega
    rw [← haddr']
    exact hstored m hmx
  have hword : wordAtPc t = wordOfBytes (s.reg k) (s.reg m) := by rw [wordAtPc, hhi, hlo]
  exact ⟨hcompletes.pc, hword, fun i hrun hd => step_of_decode_eq_ok hrun (by omega) (hword ▸ hd)⟩

/-- Settles O52: the load reads the block that the store wrote, address by address. -/
theorem blockStoreThenLoad : Obligations.BlockStoreThenLoad := by
  intro x s t u hwf hfit h hindex hblock
  obtain ⟨_, hstored⟩ := completesWith_of_exec_storeRegsToMem hwf hfit h
  obtain ⟨r, hr, _, hloaded⟩ := (blockLoad x u).2.1 (hindex ▸ hfit)
  refine ⟨r, hr, fun k hk => ?_⟩
  have haddr : dataAddr u k.val = dataAddr s k.val := by rw [dataAddr, dataAddr, hindex]
  rw [hloaded k, if_pos hk, haddr, hblock k hk, hstored k hk]

end Sys2Proof

/-! `draw` (44_draw.md R210 to R218; 10_state.md R34): the byte algorithm as an inversion of pixels. An XOR of one byte inverts the pixels under its 1
bits; a sprite row is one or two of them on different bytes, and a sprite is rows on different screen rows, so that the inversions add up. -/

namespace Sys2Proof

open Sys2Proof.Machine

/-! ### Inversions of sets of pixels -/

/-- From the screen and flag `p` to `q` exactly the pixels of `hits` are inverted, and the flag is raised when one of them was lit. -/
structure InvertsExactly (hits : Fin 32 → Fin 64 → Prop) (p q : Screen × Bool) : Prop where
  on : ∀ r c, hits r c → pixel q.1 r c = !pixel p.1 r c
  off : ∀ r c, ¬ hits r c → pixel q.1 r c = pixel p.1 r c
  flag : q.2 = true ↔ p.2 = true ∨ ∃ r c, hits r c ∧ pixel p.1 r c = true

section Inversions

variable {hits hits' : Fin 32 → Fin 64 → Prop} {p q q' : Screen × Bool}

theorem invertsExactly_nothing (p : Screen × Bool) : InvertsExactly (fun _ _ => False) p p :=
  ⟨fun _ _ h => h.elim, fun _ _ _ => rfl, by simp⟩

theorem InvertsExactly.congr (h : InvertsExactly hits p q) (heq : ∀ r c, hits' r c ↔ hits r c) : InvertsExactly hits' p q :=
  (funext fun r => funext fun c => propext (heq r c) : hits' = hits) ▸ h

/-- Inversions of disjoint sets, one after the other, invert the union: neither sees what the other did. -/
theorem InvertsExactly.trans (h : InvertsExactly hits p q) (h' : InvertsExactly hits' q q') (hdisj : ∀ r c, hits r c → ¬ hits' r c) :
    InvertsExactly (fun r c => hits r c ∨ hits' r c) p q' := by
  have hnot (r c) (hhit' : hits' r c) : pixel q.1 r c = pixel p.1 r c := h.off r c fun hhit => hdisj r c hhit hhit'
  refine ⟨fun r c hhit => ?_, fun r c hhit => ?_, ?_⟩
  · obtain hhit | hhit := hhit
    · rw [h'.off r c (hdisj r c hhit), h.on r c hhit]
    · rw [h'.on r c hhit, hnot r c hhit]
  · obtain ⟨hfirst, hsecond⟩ := not_or.mp hhit
    rw [h'.off r c hsecond, h.off r c hfirst]
  · rw [h'.flag, h.flag, or_assoc]
    refine or_congr_right ?_
    constructor
    · rintro (⟨r, c, hhit, hlit⟩ | ⟨r, c, hhit, hlit⟩)
      · exact ⟨r, c, .inl hhit, hlit⟩
      · exact ⟨r, c, .inr hhit, hnot r c hhit ▸ hlit⟩
    · rintro ⟨r, c, hhit | hhit, hlit⟩
      · exact .inl ⟨r, c, hhit, hlit⟩
      · exact .inr ⟨r, c, hhit, (hnot r c hhit).trans hlit⟩

end Inversions

/-! ### One screen byte (R34, R210) -/

/-- The pixels of screen byte `k` under the 1 bits of `b`. -/
def byteHits (k : Fin 256) (b : Byte) (r : Fin 32) (c : Fin 64) : Prop := k.val = r.val * 8 + c.val / 8 ∧ b.getLsbD (7 - c.val % 8) = true

/-- A byte and a bit of it name one pixel. -/
theorem exists_pixel_of_bit (k : Fin 256) {m : Nat} (hm : m < 8) :
    ∃ (r : Fin 32) (c : Fin 64), k.val = r.val * 8 + c.val / 8 ∧ 7 - c.val % 8 = m :=
  ⟨⟨k.val / 8, by omega⟩, ⟨k.val % 8 * 8 + (7 - m), by omega⟩, by simp only; omega, by simp only; omega⟩

theorem pixel_of_byte {fb : Screen} {k : Fin 256} {r : Fin 32} {c : Fin 64} (h : k.val = r.val * 8 + c.val / 8) :
    pixel fb r c = fb[k].getLsbD (7 - c.val % 8) := by
  simp only [pixel, Fin.getElem_fin, h]

theorem byte_ne_zero_iff (b : Byte) : b ≠ 0 ↔ ∃ m < 8, b.getLsbD m = true := by
  constructor
  · intro hne
    by_contra hnone
    refine hne (BitVec.eq_of_getLsbD_eq fun m hm => ?_)
    simpa using fun hbit => hnone ⟨m, hm, hbit⟩
  · rintro ⟨m, _, hbit⟩ rfl
    simp at hbit

theorem xorScreenByte_invertsExactly (k : Fin 256) (b : Byte) (p : Screen × Bool) : InvertsExactly (byteHits k b) p (xorScreenByte k b p) := by
  refine ⟨fun r c hhit => ?_, fun r c hmiss => ?_, ?_⟩
  · simp [pixel, hhit.1, hhit.2]
  · by_cases hk : k.val = r.val * 8 + c.val / 8
    · have hbit : b.getLsbD (7 - c.val % 8) = false := by simpa [byteHits, hk] using hmiss
      simp [pixel, hk, hbit]
    · simp [pixel, hk]
  · simp only [xorScreenByte_flag, Bool.or_eq_true, decide_eq_true_eq, byte_ne_zero_iff, BitVec.getLsbD_and, Bool.and_eq_true]
    refine or_congr_right ?_
    constructor
    · rintro ⟨m, hm, hlit, hbit⟩
      obtain ⟨r, c, hk, rfl⟩ := exists_pixel_of_bit k hm
      exact ⟨r, c, ⟨hk, hbit⟩, (pixel_of_byte hk).trans hlit⟩
    · rintro ⟨r, c, ⟨hk, hbit⟩, hlit⟩
      exact ⟨_, by omega, (pixel_of_byte hk).symm.trans hlit, hbit⟩

/-- Screens with the same pixels are the same bytes. -/
theorem screen_ext {fb fb' : Screen} (h : ∀ r c, pixel fb r c = pixel fb' r c) : fb = fb' := by
  refine Vector.ext fun k hk => BitVec.eq_of_getLsbD_eq fun m hm => ?_
  obtain ⟨r, c, hbyte, rfl⟩ := exists_pixel_of_bit ⟨k, hk⟩ hm
  exact (pixel_of_byte hbyte).symm.trans ((h r c).trans (pixel_of_byte hbyte))

/-! ### One sprite row (R210, R212) -/

/-- The pixels a sprite row inverts: its j-th bit from the left falls on the column `(vx + j) mod 64`. -/
def rowHits (vx : Byte) (row : Fin 32) (sprite : Byte) (r : Fin 32) (c : Fin 64) : Prop :=
  r = row ∧ ∃ j < 8, c.val = (vx.toNat + j) % 64 ∧ sprite.getLsbD (7 - j) = true

theorem drawColumn_val (vx : Byte) : (drawColumn vx).val = vx.toNat / 8 % 8 := rfl

theorem drawColumn_add_one_val (vx : Byte) : (drawColumn vx + 1).val = (vx.toNat / 8 % 8 + 1) % 8 := by
  rw [Fin.val_add, drawColumn_val]
  rfl

section Rows

variable {vx sprite : Byte} {row r : Fin 32} {c : Fin 64}

/-- The bits that stay in the first screen byte are those that the shift does not push out. -/
theorem byteHits_first_iff :
    byteHits (screenByte row (drawColumn vx)) (sprite >>> drawShift vx) r c ↔
      r = row ∧ ∃ j, j + drawShift vx < 8 ∧ c.val = (vx.toNat + j) % 64 ∧ sprite.getLsbD (7 - j) = true := by
  rw [byteHits, drawShift, screenByte_val, drawColumn_val, BitVec.getLsbD_ushiftRight]
  constructor
  · rintro ⟨hk, hbit⟩
    have hinside : vx.toNat % 8 + (7 - c.val % 8) < 8 := BitVec.lt_of_getLsbD hbit
    have hj : vx.toNat % 8 + (7 - c.val % 8) = 7 - (c.val % 8 - vx.toNat % 8) := by omega
    exact ⟨Fin.ext (by omega), c.val % 8 - vx.toNat % 8, by omega, by omega, hj ▸ hbit⟩
  · rintro ⟨rfl, j, hj, hc, hbit⟩
    have hm : 7 - j = vx.toNat % 8 + (7 - c.val % 8) := by omega
    exact ⟨by omega, hm ▸ hbit⟩

/-- The bits that spill into the next screen byte are those that the shift pushes out: none for shift 0. -/
theorem byteHits_second_iff :
    byteHits (screenByte row (drawColumn vx + 1)) (sprite <<< (8 - drawShift vx)) r c ↔
      r = row ∧ ∃ j < 8, 8 ≤ j + drawShift vx ∧ c.val = (vx.toNat + j) % 64 ∧ sprite.getLsbD (7 - j) = true := by
  rw [byteHits, drawShift, screenByte_val, drawColumn_add_one_val, BitVec.getLsbD_shiftLeft]
  simp only [Bool.and_eq_true, Bool.not_eq_true', decide_eq_true_eq, decide_eq_false_iff_not]
  constructor
  · rintro ⟨hk, ⟨_, hpushed⟩, hbit⟩
    have hj : 7 - c.val % 8 - (8 - vx.toNat % 8) = 7 - (c.val % 8 + 8 - vx.toNat % 8) := by omega
    exact ⟨Fin.ext (by omega), c.val % 8 + 8 - vx.toNat % 8, by omega, by omega, by omega, hj ▸ hbit⟩
  · rintro ⟨rfl, j, hj, hpushed, hc, hbit⟩
    have hm : 7 - j = 7 - c.val % 8 - (8 - vx.toNat % 8) := by omega
    exact ⟨by omega, ⟨by omega, by omega⟩, hm ▸ hbit⟩

/-- A sprite row is the bits that stay and, unless the shift is 0, the bits that spill. -/
theorem blitRow_invertsExactly (vx : Byte) (row : Fin 32) (sprite : Byte) (p : Screen × Bool) :
    InvertsExactly (rowHits vx row sprite) p (blitRow vx row sprite p) := by
  have hfirst := xorScreenByte_invertsExactly (screenByte row (drawColumn vx)) (sprite >>> drawShift vx) p
  unfold blitRow
  split
  next hzero =>
    refine hfirst.congr fun r c => ?_
    rw [byteHits_first_iff, hzero]
    rfl
  next hshift =>
    refine (hfirst.trans (xorScreenByte_invertsExactly _ _ _) fun r c hstay hspill => ?_).congr fun r c => ?_
    · obtain ⟨_, j, hj, hc, _⟩ := byteHits_first_iff.mp hstay
      obtain ⟨_, j', hj', hpushed, hc', _⟩ := byteHits_second_iff.mp hspill
      omega
    · rw [byteHits_first_iff, byteHits_second_iff, ← and_or_left, rowHits]
      refine and_congr_right fun _ => ?_
      constructor
      · rintro ⟨j, hj, hbit⟩
        by_cases hstay : j + drawShift vx < 8
        · exact .inl ⟨j, hstay, hbit⟩
        · exact .inr ⟨j, hj, by omega, hbit⟩
      · rintro (⟨j, hj, hbit⟩ | ⟨j, hj, _, hbit⟩)
        · exact ⟨j, by omega, hbit⟩
        · exact ⟨j, hj, hbit⟩

end Rows

/-! ### A whole sprite (R210, R213) -/

section Sprites

variable {s t : State} {vx vy : Byte}

theorem blit_succ (s : State) (vx vy : Byte) (n : Nat) :
    blit s vx vy (n + 1) = blitRow vx (drawRowNumber vy n) (s.mem.read (dataAddr s n)) (blit s vx vy n) := by
  simp only [blit, List.range_succ, List.foldl_append, List.foldl_cons, List.foldl_nil]

theorem inverts_succ_iff {n : Nat} {r : Fin 32} {c : Fin 64} :
    Inverts s vx vy (n + 1) r c ↔ Inverts s vx vy n r c ∨ rowHits vx (drawRowNumber vy n) (s.mem.read (dataAddr s n)) r c := by
  constructor
  · rintro ⟨i, j, hi, hj, hr, hc, hbit⟩
    obtain hlt | rfl := Nat.lt_succ_iff_lt_or_eq.mp hi
    · exact .inl ⟨i, j, hlt, hj, hr, hc, hbit⟩
    · exact .inr ⟨Fin.ext hr, j, hj, hc, hbit⟩
  · rintro (⟨i, j, hi, hj, hr, hc, hbit⟩ | ⟨rfl, j, hj, hc, hbit⟩)
    · exact ⟨i, j, by omega, hj, hr, hc, hbit⟩
    · exact ⟨n, j, by omega, hj, rfl, hc, hbit⟩

/-- Up to 32 sprite rows fall on different screen rows, so that the byte algorithm inverts the pixels that R213 names. -/
theorem blit_invertsExactly (s : State) (vx vy : Byte) {n : Nat} (hn : n ≤ 32) :
    InvertsExactly (Inverts s vx vy n) (s.fb, false) (blit s vx vy n) := by
  induction n with
  | zero => exact (invertsExactly_nothing _).congr fun r c => iff_false_intro fun ⟨_, _, hi, _⟩ => Nat.not_lt_zero _ hi
  | succ n ih =>
    rw [blit_succ]
    refine ((ih (by omega)).trans (blitRow_invertsExactly _ _ _ _) fun r c habove hrow => ?_).congr fun r c => inverts_succ_iff
    obtain ⟨i, _, hi, _, hr, _⟩ := habove
    have hr' : r.val = (vy.toNat + n) % 32 := congrArg Fin.val hrow.1
    omega

/-- A sprite row that is not zero inverts a pixel. -/
theorem exists_inverts_of_ne_zero (vx vy : Byte) {n i : Nat} (hi : i < n) (hrow : s.mem.read (s.index.toNat + i) ≠ 0) :
    ∃ r c, Inverts s vx vy n r c := by
  obtain ⟨m, hm, hbit⟩ := (byte_ne_zero_iff _).mp hrow
  have hj : m = 7 - (7 - m) := by omega
  exact ⟨⟨(vy.toNat + i) % 32, by omega⟩, ⟨(vx.toNat + (7 - m)) % 64, by omega⟩, i, 7 - m, hi, by omega, rfl, rfl, hj ▸ hbit⟩

theorem Inverts.congr {n : Nat} {r : Fin 32} {c : Fin 64} (hindex : t.index = s.index) (hmem : ∀ a, t.mem.read a = s.mem.read a) :
    Inverts t vx vy n r c ↔ Inverts s vx vy n r c := by
  simp only [Inverts, hindex, hmem]

end Sprites

/-! ### The obligations of the family -/

/-- Settles O40: `draw` is the blit, and at most 15 rows fall on different screen rows. -/
theorem drawInvertsTheSpritePixels : Obligations.DrawInvertsTheSpritePixels := by
  intro x y n s hfit
  have hblit := blit_invertsExactly s (s.reg x) (s.reg y) (n := n.val) (by omega)
  refine ⟨_, execDraw_eq_next.mpr (.inl ⟨by unfold memSize; omega, rfl⟩),
    (unchangedExcept_setScreen_setReg s _ _ _).completesWith (by decide), rfl, fun r c => ⟨hblit.on r c, hblit.off r c⟩, fun hlit => ?_,
    fun hdark => ?_, fun r hr => (State.reg_setReg _ flagReg _ r).trans (if_neg hr)⟩
  · exact (State.reg_setReg _ flagReg _ 15).trans ((flagByte_eq_one_iff _).mpr (hblit.flag.mpr (.inr hlit)))
  · refine (State.reg_setReg _ flagReg _ 15).trans ((flagByte_eq_zero_iff _).mpr (Bool.eq_false_iff.mpr fun hflag => ?_))
    exact (hblit.flag.mp hflag).elim Bool.false_ne_true hdark

/-- Settles O43: the second draw has the operands of the first, so it inverts the same pixels back, and finds lit those that were dark. -/
theorem drawTwiceRestoresTheScreen : Obligations.DrawTwiceRestoresTheScreen := by
  intro x y n s t hx hy hfit h
  obtain ⟨t', ht', hcompletes, _, hpixels, _, hdark, hothers⟩ := drawInvertsTheSpritePixels x y n s hfit
  obtain rfl : t' = t := Host.Outcome.next.inj (ht'.symm.trans h)
  have hindex : t'.index = s.index := hcompletes.frame .index (by decide)
  have hmem : ∀ a, t'.mem.read a = s.mem.read a := hcompletes.frame .mem (by decide)
  obtain ⟨u, hu, _, _, hpixels', hlit', _, _⟩ := drawInvertsTheSpritePixels x y n t' (hindex.symm ▸ hfit)
  simp only [hothers x hx, hothers y hy, Inverts.congr hindex hmem] at hpixels' hlit'
  refine ⟨u, hu, screen_ext fun r c => ?_, fun hzero ⟨i, hi, hrow⟩ => ⟨hdark ?_, hlit' ?_⟩⟩
  · by_cases hhit : Inverts s (s.reg x) (s.reg y) n.val r c
    · rw [(hpixels' r c).1 hhit, (hpixels r c).1 hhit, Bool.not_not]
    · rw [(hpixels' r c).2 hhit, (hpixels r c).2 hhit]
  all_goals
    have hoff (r : Fin 32) (c : Fin 64) : pixel s.fb r c = false := by
      rw [pixel_of_byte (k := ⟨r.val * 8 + c.val / 8, by omega⟩) rfl, hzero, BitVec.ofNat_eq_ofNat, BitVec.getLsbD_zero]
  · rintro ⟨r, c, _, hlit⟩
    exact absurd ((hoff r c).symm.trans hlit) Bool.false_ne_true
  · obtain ⟨r, c, hhit⟩ := exists_inverts_of_ne_zero (s.reg x) (s.reg y) hi hrow
    exact ⟨r, c, hhit, by rw [(hpixels r c).1 hhit, hoff, Bool.not_false]⟩

/-- Settles O41: the checks come first, and a failed check latches the first address outside. -/
theorem drawFaultsBeforeDrawing : Obligations.DrawFaultsBeforeDrawing := fun _ _ n s hrows hout =>
  ⟨_, execDraw_eq_next.mpr (.inr ⟨by omega, by unfold memSize; omega, rfl⟩), abandonedWith_latchFault_max s⟩

/-- Settles O42: the blit of no rows is the screen as it was, with the flag 0. -/
theorem drawOfZeroRows : Obligations.DrawOfZeroRows := by
  intro x y s
  have hframe : UnchangedExcept [.regs, .drawn] s ((s.setScreen s.fb).setReg flagReg 0) := by
    intro p hp
    cases p <;> simp_all [Part.same]
  exact ⟨_, (execDraw_eq_next (x := x) (y := y) (n := 0)).mpr (.inl ⟨.inl rfl, rfl⟩), hframe.completesWith (by decide), rfl,
    State.reg_setReg _ flagReg 0 15, fun r hr => (State.reg_setReg _ flagReg 0 r).trans (if_neg hr)⟩

end Sys2Proof
